-- ==== Sys2Proof/Word.lean ====
section
/-! DEFINITION. The widths of the block: bytes, control bytes and 32-bit words (00_scope.md R5, R8; 30_encoding.md R40). -/

namespace Sys2Proof

/-- One input byte (R28) or one control byte (R40). -/
abbrev Byte := BitVec 8

/-- Every datapath value: an unsigned 32-bit integer (R8). -/
abbrev Word := BitVec 32

end Sys2Proof
end

