-- ==== Sys2Proof/Syntax.lean ====
section
/-! DEFINITION. The commands (30_encoding.md R42, spec/opcode_table.json), the raw beat that carries one (R40) and the error
codes a command can raise (60_exceptions.md R86). -/

namespace Sys2Proof

/-- One command as it crosses the command port: the pair (`cmd_ctl`, `cmd_data`) of R39. -/
structure Beat where
  ctl  : Byte
  data : Word
deriving DecidableEq, Repr

/-- The commands of the opcode table, one constructor a row. Every bit of the 32-bit data word is an operand, the ignored
ones too (R46), so that a decoded command says exactly which beat it came from (DESIGN CHOICE, log 13). -/
inductive Instr
  /-- NOP (R68). `x`: the ignored data word. -/
  | nop (x : Word)
  /-- INIT (R69). `seed`: all 32 data bits. -/
  | init (seed : Word)
  /-- BLOCK (R70). `k`: the block word, lane i its i-th byte. -/
  | block (k : Word)
  /-- TAIL (R71). `n`: the tail length; `t`: the data word, lanes n to 3 ignored. -/
  | tail (n : BitVec 2) (t : Word)
  /-- FINAL (R72). `x`: the ignored data word. -/
  | final (x : Word)
deriving DecidableEq, Repr

/-- The causes of a command error (R86). Code 0, NONE, is no error. -/
inductive CmdError
  /-- OP is 0b101, 0b110 or 0b111 (R43). -/
  | illegalOp
  /-- RSV is not 0, or N is not 0 outside TAIL (R44). -/
  | reservedField
  /-- TAIL with N = 0 (R45). -/
  | tailZero
  /-- A command out of the order of the source's steps (R88). -/
  | sequence
deriving DecidableEq, Repr

end Sys2Proof
end

