-- ==== Sys2Proof/WellFormed.lean ====
section
/-! DEFINITION. Which terms of Instr are commands of the block: the table excludes TAIL with n = 0 (30_encoding.md R42, R45);
every other operand may take every value. -/

namespace Sys2Proof

/-- The operand check, constructor by constructor: only TAIL restricts an operand, n in 1..3 (R71). -/
def Instr.wellFormed : Instr → Bool
  | .nop _ => true
  | .init _ => true
  | .block _ => true
  | .tail n _ => n != 0
  | .final _ => true

end Sys2Proof
end

