-- ==== Sys2Proof/Decode.lean ====
section
/-! DEFINITION. The decoder and the encoder (30_encoding.md R40 to R47, 60_exceptions.md R87). A command is one 40-bit beat; the
decoder is total on all of them and rejects an illegal one by the name of the error it raises. -/

namespace Sys2Proof

/-- OP, control bits [2:0] (R40). -/
def ctlOp (ctl : Byte) : BitVec 3 := ctl.extractLsb' 0 3

/-- N, control bits [4:3] (R40). -/
def ctlN (ctl : Byte) : BitVec 2 := ctl.extractLsb' 3 2

/-- RSV, control bits [7:5] (R40). -/
def ctlRsv (ctl : Byte) : BitVec 3 := ctl.extractLsb' 5 3

/-- The decode check of R87, in its order of priority (R89); none is the rule's 0. The data word is never checked. -/
def decodeCheck (ctl : Byte) : Option CmdError :=
  if ctlOp ctl = 0b101#3 ∨ ctlOp ctl = 0b110#3 ∨ ctlOp ctl = 0b111#3 then some .illegalOp
  else if ctlRsv ctl ≠ 0 ∨ (ctlOp ctl ≠ 0b011#3 ∧ ctlN ctl ≠ 0) then some .reservedField
  else if ctlOp ctl = 0b011#3 ∧ ctlN ctl = 0 then some .tailZero
  else none

/-- The command a beat with a legal control byte stands for (R41, R42): OP selects it, the data word is its operand. -/
def selectInstr (b : Beat) : Instr :=
  if ctlOp b.ctl = 0b000#3 then .nop b.data
  else if ctlOp b.ctl = 0b001#3 then .init b.data
  else if ctlOp b.ctl = 0b010#3 then .block b.data
  else if ctlOp b.ctl = 0b011#3 then .tail (ctlN b.ctl) b.data
  else .final b.data

/-- The decoder: R87's check, then the selection of R42. -/
def decode (b : Beat) : Except CmdError Instr :=
  match decodeCheck b.ctl with
  | some e => .error e
  | none => .ok (selectInstr b)

/-- The control byte of RSV = 0 with the given N and OP (R40). -/
def mkCtl (n : BitVec 2) (op : BitVec 3) : Byte := 0b000#3 ++ n ++ op

/-- The encoder, from R42's table. -/
def encode : Instr → Beat
  | .nop x => ⟨mkCtl 0 0b000#3, x⟩
  | .init seed => ⟨mkCtl 0 0b001#3, seed⟩
  | .block k => ⟨mkCtl 0 0b010#3, k⟩
  | .tail n t => ⟨mkCtl n 0b011#3, t⟩
  | .final x => ⟨mkCtl 0 0b100#3, x⟩

/-- The beat as one 40-bit number `{ctl, data}` (R40): OP is bits [34:32], N [36:35], RSV [39:37], the data word [31:0]. -/
def Beat.bits (b : Beat) : BitVec 40 := b.ctl ++ b.data

/-- The beat a 40-bit number stands for (R40). -/
def Beat.ofBits (v : BitVec 40) : Beat := ⟨v.extractLsb' 32 8, v.extractLsb' 0 32⟩

/-- The beat whose bits, numbered as spec/opcode_table.json numbers them, are the low `nbits` bits of `w`; the bits above are 0
(DEDUCED, log 14: the table's match and mask are 40-bit numbers with bit 0 the least significant). -/
def beatOfTableWord (nbits w : Nat) : Beat := Beat.ofBits (BitVec.ofNat 40 (w % 2 ^ nbits))

/-- What the decoder reads from a row of the opcode table. No command is longer than one 40-bit beat (R47). -/
def decodeTableWord (nbits w : Nat) : Option Instr :=
  if nbits ≤ 40 then
    match decode (beatOfTableWord nbits w) with
    | .ok i => some i
    | .error _ => none
  else none

end Sys2Proof
end

