-- ==== Sys2Proof/Machine/Datapath.lean ====
section
/-! DEFINITION. The datapath units (40_datapath.md R50 to R57) and the constant table they use (10_state.md R22). Every unit is a
total function of its inputs (R64); all arithmetic is modulo 2^32 (R8, R62). -/

namespace Sys2Proof.Machine

/-- C1 (R22): first key multiplier. -/
def constC1 : Word := 0xcc9e2d51
/-- C2 (R22): second key multiplier. -/
def constC2 : Word := 0x1b873593
/-- R_K (R22): key rotation. -/
def rotKey : Nat := 15
/-- R_H (R22): accumulator rotation. -/
def rotAcc : Nat := 13
/-- M_H (R22): block multiplier. -/
def mulAcc : Word := 5
/-- N_H (R22): block addend. -/
def addAcc : Word := 0xe6546b64
/-- F1 (R22): first finalization multiplier. -/
def constF1 : Word := 0x85ebca6b
/-- F2 (R22): second finalization multiplier. -/
def constF2 : Word := 0xc2b2ae35
/-- S1 (R22): first finalization shift. -/
def shiftS1 : Nat := 16
/-- S2 (R22): second finalization shift. -/
def shiftS2 : Nat := 13
/-- S3 (R22): third finalization shift. -/
def shiftS3 : Nat := 16

/-- The multiply-accumulate unit (R50): the exact product and sum, reduced modulo 2^32. The operands
that the block wires to constants (b and c) stand first, so that a comparison of open terms gets stuck on the variable one and
does not count a constant down. -/
def mac (a b c : Word) : Word := BitVec.ofNat 32 (c.toNat + b.toNat * a.toNat)

/-- The rotate-left unit (R51, 90 C7): both shift amounts are taken modulo 32, so a rotation by 0 or 32 is the identity. The
right amount is `(32 - r) mod 32` of the rule, written without a subtraction below zero. -/
def rotl (x : Word) (r : Nat) : Word := (x <<< (r % 32)) ||| (x >>> ((32 - r % 32) % 32))

/-- The XOR mixer, two-operand form (R52). -/
def xorMix (a b : Word) : Word := a ^^^ b

/-- The XOR mixer, shift form (R53), with a zero-filling right shift. -/
def xorshift (x : Word) (s : Nat) : Word := xorMix x (x >>> s)

/-- The key mix (R54). -/
def kmix (k : Word) : Word :=
  let t1 := mac k constC1 0
  let t2 := rotl t1 rotKey
  mac t2 constC2 0

/-- The accumulator mix for a full block (R55). -/
def hmix (h k : Word) : Word :=
  let u1 := xorMix h (kmix k)
  let u2 := rotl u1 rotAcc
  mac u2 mulAcc addAcc

/-- The finalization avalanche stage (R56). -/
def fmix (h : Word) : Word :=
  let v1 := xorshift h shiftS1
  let v2 := mac v1 constF1 0
  let v3 := xorshift v2 shiftS2
  let v4 := mac v3 constF2 0
  xorshift v4 shiftS3

/-- Finalization with the length (R57), the rule's `final`. -/
def finalMix (h len : Word) : Word := fmix (xorMix h len)

end Sys2Proof.Machine
end

