-- ==== Sys2Proof/Machine/Operands.lean ====
section
/-! DEFINITION. Operand assembly: byte lanes (20_memory.md R28, R29), `bytes_le` (00_scope.md R9), the tail key (40_datapath.md
R58) and its mask (30_encoding.md R41). Nothing is sign-extended (R8). -/

namespace Sys2Proof.Machine

/-- Byte lane i of a data word: bits [8i+7:8i] (R28). -/
def lane (data : Word) (i : Nat) : Byte := data.extractLsb' (8 * i) 8

/-- A byte placed in lane i, the other lanes 0 (R9, R58). -/
def atLane (b : Byte) (i : Nat) : Word := b.setWidth 32 <<< (8 * i)

/-- `bytes_le` (R9): the little-endian word of four bytes. -/
def bytesLe (b0 b1 b2 b3 : Byte) : Word := atLane b0 0 ||| atLane b1 1 ||| atLane b2 2 ||| atLane b3 3

/-- R58's loop: the first n lanes of the data word, ORed in one at a time. -/
def tailKeyLanes : Nat → Word → Word
  | 0, _ => 0
  | n + 1, data => tailKeyLanes n data ||| atLane (lane data n) n

/-- `tail_key(n, data)` (R58). -/
def tailKey (n : BitVec 2) (data : Word) : Word := tailKeyLanes n.toNat data

/-- `mask(n)` (R41, R58): 2^(8n) - 1. -/
def tailMask (n : BitVec 2) : Word := BitVec.ofNat 32 (2 ^ (8 * n.toNat) - 1)

end Sys2Proof.Machine
end

