-- ==== Sys2Proof/Config.lean ====
section
/-! DEFINITION. What the spec leaves open: the parameters of an implementation (00_scope.md R6) and the free values
(70_reset_and_hazards.md R99, R104; 93_implementation_defined.md U1, U2, U4). Each is a constant without a body, so that
nothing can be proved of its value. -/

namespace Sys2Proof.Config

/-- The n-th free word the machine draws: `junk` of an unsettled read (R104), the value of a read during reset (R99), the
registers after a loss of power (60_exceptions.md R97). Notes: log 4, log 11. -/
opaque draw : Nat → Word

/-- What stands in the pipeline after a loss of power and before the next reset (R97, 93 U4): any list of commands. -/
opaque powerUpPending : Nat → List Beat

/-- `LAT_RETIRE` (R6): cycles from acceptance to retirement. OPEN; no rule depends on it (R110). -/
opaque latRetire : Nat

/-- `STALL_MAX` (R6): cycles `cmd_ready` may stay 0 outside reset. OPEN; no rule depends on it. -/
opaque stallMax : Nat

/-- `RD_LAT` (30_encoding.md R38): read latency in cycles. OPEN; a read is one step (R38, R104). -/
opaque rdLat : Nat

/-- `MAC_UNITS` (R6): physical multiply-accumulate units. OPEN; not observable. -/
opaque macUnits : Nat

/-- `PIPE_STAGES` (R6): pipeline stages. OPEN; not observable. -/
opaque pipeStages : Nat

/-- The two reset styles `RESET_STYLE` chooses between (R6, R98). -/
inductive ResetStyle
  | synchronous
  | asynchronous
deriving DecidableEq, Repr, Inhabited

/-- `RESET_STYLE` (R6, R98). OPEN; reset is one step whatever it is. -/
opaque resetStyle : ResetStyle

end Sys2Proof.Config
end

