-- ==== Sys2Proof/Machine/State.lean ====
section
/-! DEFINITION. The machine's state (10_state.md R11 to R26, 70_reset_and_hazards.md R100), its reset (R25, R98), and the reasons
a step can stop. Plain data throughout. -/

namespace Sys2Proof.Machine

/-- PHASE, the sequencer state (R14). -/
inductive Phase
  /-- 0: no hash begun since reset. -/
  | idle
  /-- 1: INIT done; zero or more blocks absorbed; no tail yet. -/
  | absorb
  /-- 2: a tail absorbed; only FINAL may follow. -/
  | tailed
  /-- 3: FINAL done; RESULT holds the hash. -/
  | done
deriving DecidableEq, Repr

/-- `arch` of R100: the stored elements of R25, each of R25's width. -/
structure Arch where
  /-- H, the accumulator (R12). -/
  h : Word
  /-- LEN, the bytes absorbed since the last INIT, modulo 2^32 (R13). -/
  len : Word
  /-- PHASE (R14). -/
  phase : Phase
  /-- RESULT, the last finalized hash (R15). -/
  result : Word
  /-- ERR, the sticky error flag (R17). -/
  err : Bool
  /-- ECODE, the code of the first error since the last INIT or reset (R18). -/
  ecode : BitVec 3
deriving DecidableEq, Repr

/-- One thing that happens at the block's ports or inside it. A list of them in State says which step comes next
(DESIGN CHOICE, log 1). -/
inductive Event
  /-- The host offers a command: `cmd_valid` = 1 with this beat on `cmd_ctl` and `cmd_data` (R38, R39). -/
  | offer (b : Beat)
  /-- The host takes `cmd_valid` back to 0 (R38; DEDUCED, log 8). -/
  | withdraw
  /-- A rising edge of `clk` at which the block is not stalling: `cmd_ready` = 1 outside reset (R39). A standing offer is
  accepted here. -/
  | edge
  /-- The block retires its oldest pending command (R102). -/
  | retire
  /-- The host reads the register that `rd_sel` selects (R34, R104). -/
  | read (sel : BitVec 2)
  /-- `rst_n` is taken to 0: the Reset step (R98). -/
  | assertReset
  /-- `rst_n` returns to 1 (R99). -/
  | releaseReset
  /-- Power is lost and comes back (R97). -/
  | powerLoss
deriving DecidableEq, Repr

/-- The state: `(arch, pending)` of R100, the signals of R38 that a step reads or writes, and the model's own bookkeeping. -/
structure State where
  /-- The architectural registers (R25). -/
  arch : Arch
  /-- Accepted commands not yet retired, oldest first (R23, R100). BUSY is 1 exactly when it is not empty (R103). -/
  pending : List Beat
  /-- The command port as the host drives it: none is `cmd_valid` = 0 (R38, R39). -/
  offered : Option Beat
  /-- `rst_n` (R38): false while the block is held in reset (R98). -/
  rstN : Bool
  /-- `rd_sel` of the last read (R38). -/
  rdSel : BitVec 2
  /-- `rd_data`: what the last read returned (R38, R104). -/
  rdData : Word
  /-- The model's: a reset has been taken since power was applied (R97, R101, 93 U4; log 11). -/
  live : Bool
  /-- The model's: how many free values have been drawn (log 4). -/
  draws : Nat
  /-- The model's: what happens next, first event first (log 1). -/
  schedule : List Event
deriving DecidableEq, Repr

/-- There is no fault: the block takes no traps and an error never halts it (60_exceptions.md R83); no unit can fail
(40_datapath.md R64). DEDUCED, log 19. -/
inductive Fault
deriving DecidableEq, Repr

/-- Why a step has no meaning. -/
inductive Refusal
  /-- Raised by an arm of exec that has no meaning yet; none is left. Safe. -/
  | notModelled (mnemonic : String)
  /-- Raised by `step` when the host changes the beat it offers before it was accepted: 93 U10, "which of the offered beats the
  block takes is not defined". Safe (log 7). -/
  | unstableOffer
  /-- Raised by `step` for every step but a Reset between a loss of power and the first reset after it: 93 U4, "a model run
  begins with a Reset step". Safe (log 11). -/
  | noResetSincePowerUp
deriving DecidableEq, Repr

/-- The reset values of R25. -/
def Arch.reset : Arch :=
  { h := 0x00000000, len := 0x00000000, phase := .idle, result := 0x00000000, err := false, ecode := 0 }

/-- The machine right after reset (R25, R98, R99): the registers at R25's values, nothing pending, `rst_n` back at 1, nothing
offered, nothing scheduled (log 10, log 7, log 6, log 4). -/
def State.reset : State :=
  { arch := Arch.reset, pending := [], offered := none, rstN := true, rdSel := 0, rdData := 0, live := true, draws := 0,
    schedule := [] }

end Sys2Proof.Machine
end

