-- ==== Sys2Proof/Machine/Flags.lean ====
section
/-! DEFINITION. The flags and the status word: PHASE's and ECODE's encodings (10_state.md R14, R18; 60_exceptions.md R86), BUSY
(70_reset_and_hazards.md R103), STATUS (R16, R74), and the phases a command may run in (R88). -/

namespace Sys2Proof.Machine

/-- PHASE as the 2-bit field STATUS[1:0] (R14). -/
def phaseBits : Phase → BitVec 2
  | .idle => 0
  | .absorb => 1
  | .tailed => 2
  | .done => 3

/-- The phase a 2-bit field stands for (R14); all four values are legal (R16). -/
def phaseOfBits (v : BitVec 2) : Phase :=
  if v = 0 then .idle else if v = 1 then .absorb else if v = 2 then .tailed else .done

/-- The code written to ECODE (R86). -/
def errorCode : CmdError → BitVec 3
  | .illegalOp => 1
  | .reservedField => 2
  | .tailZero => 3
  | .sequence => 4

/-- BUSY (R19, R103): a command is accepted and not retired. -/
def busy (s : State) : Bool := !s.pending.isEmpty

/-- STATUS (R16, R74): `zext_32({BUSY, ECODE, ERR, PHASE})`. -/
def statusWord (busyBit : Bool) (a : Arch) : Word :=
  (BitVec.ofBool busyBit ++ a.ecode ++ BitVec.ofBool a.err ++ phaseBits a.phase).setWidth 32

/-- BLOCK and TAIL require PHASE = ABSORB (R88). -/
def inAbsorb (p : Phase) : Bool := p == .absorb

/-- FINAL requires PHASE = ABSORB or TAILED (R88). -/
def inAbsorbOrTailed (p : Phase) : Bool := p == .absorb || p == .tailed

end Sys2Proof.Machine
end

