-- ==== Sys2Proof/Machine/Ops.lean ====
section
/-! DEFINITION. The shared operations: the error action and the way out of it (60_exceptions.md R84, R91), the sticky drop (R85),
the sequence check (R88), the value of a settled read (41_commands.md R73 to R76) and the drawing of free values (R104). -/

namespace Sys2Proof.Machine

/-- A command's effect changes `arch` and nothing else of the state (R102). -/
def State.mapArch (f : Arch → Arch) (s : State) : State := { s with arch := f s.arch }

/-- THE ERROR ACTION `raise CmdError(code)` (R84): ERR <- 1, ECODE <- code; the command is not performed. Its precondition
ERR = 0 is the callers' (`unlessErr`). It is all this block has of an exception: nothing is saved and no control is
transferred (R83, R91). -/
def raiseCmdError (e : CmdError) (a : Arch) : Arch := { a with err := true, ecode := errorCode e }

/-- THE RETURN from the error state (R69, R91): ERR <- 0, ECODE <- 0. Only a legal INIT takes it. -/
def clearError (a : Arch) : Arch := { a with err := false, ecode := 0 }

/-- The sticky drop (R85): while ERR = 1 the command changes nothing. -/
def unlessErr (effect : Arch → Arch) (a : Arch) : Arch := if a.err then a else effect a

/-- The sequence check (R88): outside the phases it may run in, the command raises SEQUENCE. -/
def inSequence (allowed : Phase → Bool) (effect : Arch → Arch) (a : Arch) : Arch :=
  if allowed a.phase then effect a else raiseCmdError .sequence a

/-- A command that needs a phase (R67): dropped while ERR = 1, then checked, then performed. -/
def sequenced (allowed : Phase → Bool) (effect : Arch → Arch) : Arch → Arch := unlessErr (inSequence allowed effect)

/-- The value of a settled read of each select (R34, R73 to R76). BUSY is 0 in it. -/
def settledValue (a : Arch) (sel : BitVec 2) : Word :=
  if sel = 0 then a.result
  else if sel = 1 then statusWord false a
  else if sel = 2 then a.h
  else a.len

/-- The value of an unsettled read (R104): the draw, with STATUS[6] = BUSY = 1 for select 1. -/
def unsettledValue (junk : Word) (sel : BitVec 2) : Word := if sel = 1 then junk ||| 0x00000040 else junk

/-- A read that returns `v` (R104): `rd_data` shows it; `arch` and `pending` keep their values. -/
def State.showRead (sel : BitVec 2) (v : Word) (s : State) : State := { s with rdSel := sel, rdData := v }

/-- The next free value (log 4). -/
def freeWord (s : State) : Word := Config.draw s.draws

/-- A state in which n free values more have been drawn (log 4). -/
def State.drawn (n : Nat) (s : State) : State := { s with draws := s.draws + n }

/-- The registers after a loss of power, before the next reset (R97, 93 U4): free values, taken from four draws (log 11). -/
def powerUpArch (n : Nat) : Arch :=
  let flags := Config.draw (n + 3)
  { h := Config.draw n, len := Config.draw (n + 1), result := Config.draw (n + 2),
    phase := phaseOfBits (flags.extractLsb' 0 2), err := flags.getLsbD 2, ecode := flags.extractLsb' 3 3 }

end Sys2Proof.Machine
end

