-- ==== Sys2Proof/Machine/Commands.lean ====
section
/-! DEFINITION. The five commands (41_commands.md R68 to R72): for each its effect on `arch` when it is performed, and its meaning,
which adds the sticky drop (R85) and the sequence check (R88) in the order of R67. -/

namespace Sys2Proof.Machine

/-- INIT's effect (R69). RESULT is kept (R15). -/
def initEffect (seed : Word) (a : Arch) : Arch := clearError { a with h := seed, len := 0, phase := .absorb }

/-- BLOCK's effect (R70). -/
def blockEffect (k : Word) (a : Arch) : Arch := { a with h := hmix a.h k, len := a.len + 4 }

/-- TAIL's effect (R71): the key mix and the XOR only (R61). -/
def tailEffect (n : BitVec 2) (t : Word) (a : Arch) : Arch :=
  { a with h := xorMix a.h (kmix (tailKey n t)), len := a.len + n.setWidth 32, phase := .tailed }

/-- FINAL's effect (R72). LEN is kept. -/
def finalEffect (a : Arch) : Arch :=
  let v := finalMix a.h a.len
  { a with h := v, result := v, phase := .done }

/-- NOP (R68): no state changes, dropped or not; the data word is ignored. -/
def execNop (_x : Word) (s : State) : Host.Outcome State Fault Refusal := .next (s.mapArch (unlessErr id))

/-- INIT (R69): performed in every phase and while ERR = 1 (R85). -/
def execInit (seed : Word) (s : State) : Host.Outcome State Fault Refusal := .next (s.mapArch (initEffect seed))

/-- BLOCK (R70). -/
def execBlock (k : Word) (s : State) : Host.Outcome State Fault Refusal :=
  .next (s.mapArch (sequenced inAbsorb (blockEffect k)))

/-- TAIL (R71). -/
def execTail (n : BitVec 2) (t : Word) (s : State) : Host.Outcome State Fault Refusal :=
  .next (s.mapArch (sequenced inAbsorb (tailEffect n t)))

/-- FINAL (R72); the data word is ignored. -/
def execFinal (_x : Word) (s : State) : Host.Outcome State Fault Refusal :=
  .next (s.mapArch (sequenced inAbsorbOrTailed finalEffect))

end Sys2Proof.Machine
end

