-- ==== Sys2Proof/Machine/Dispatch.lean ====
section
/-! DEFINITION. The dispatch of a decoded command to its meaning (41_commands.md R67), one arm per row of the opcode table. -/

namespace Sys2Proof.Machine

/-- `Exec` of R67 for a beat whose decode check returned 0. -/
def exec (i : Instr) (s : State) : Host.Outcome State Fault Refusal :=
  match i with
  | .nop x => Sys2Proof.Machine.execNop x s
  | .init seed => Sys2Proof.Machine.execInit seed s
  | .block k => Sys2Proof.Machine.execBlock k s
  | .tail n t => Sys2Proof.Machine.execTail n t s
  | .final x => Sys2Proof.Machine.execFinal x s

end Sys2Proof.Machine
end

