-- ==== Sys2Proof/Machine/Ports.lean ====
section
/-! DEFINITION. What happens at the ports: the Accept, Retire, Read and Reset steps (70_reset_and_hazards.md R98 to R104), the
handshake (30_encoding.md R39) and a loss of power (60_exceptions.md R97). Step.lean only chooses which one comes next. -/

namespace Sys2Proof.Machine

/-- The host offers a beat (R39). An offer that stands must be held stable until it is accepted: a host that changes it is
given no meaning (93 U10, log 7). -/
def offerStep (b : Beat) (s : State) : Host.Outcome State Fault Refusal :=
  match s.offered with
  | none => .next { s with offered := some b }
  | some b' => if b' = b then .next s else .refused .unstableOffer

/-- The host takes `cmd_valid` back to 0 (R39; DEDUCED, log 8). -/
def withdrawStep (s : State) : Host.Outcome State Fault Refusal := .next { s with offered := none }

/-- The Accept step (R39, R100): with `rst_n` = 1 and a command offered, it joins the pending ones at the end. Otherwise nothing
is accepted: during reset `cmd_ready` is 0 and the offer goes on standing (R98; DEDUCED, log 9). -/
def acceptStep (s : State) : Host.Outcome State Fault Refusal :=
  match s.rstN, s.offered with
  | true, some b => .next { s with pending := s.pending ++ [b], offered := none }
  | _, _ => .next s

/-- `Exec` of R67 for a beat: a legal one runs its command; an illegal one is dropped while ERR = 1 (R85), else raises its
error (R84, R87). -/
def execBeat (b : Beat) (s : State) : Host.Outcome State Fault Refusal :=
  match decode b with
  | .ok i => exec i s
  | .error e => .next (s.mapArch (unlessErr (raiseCmdError e)))

/-- The Retire step (R102): the oldest pending command takes its effect. With none pending the step is not enabled and nothing
happens (DEDUCED, log 9). -/
def retireStep (s : State) : Host.Outcome State Fault Refusal :=
  match s.pending with
  | [] => .next s
  | b :: rest => execBeat b { s with pending := rest }

/-- The Read step (R99, R104): settled, the register's value; while a command is pending, a free value with BUSY exact; while
`rst_n` = 0, a free value whole (log 5). -/
def readStep (sel : BitVec 2) (s : State) : Host.Outcome State Fault Refusal :=
  if s.rstN = false then .next ((s.showRead sel (freeWord s)).drawn 1)
  else if s.pending = [] then .next (s.showRead sel (settledValue s.arch sel))
  else .next ((s.showRead sel (unsettledValue (freeWord s) sel)).drawn 1)

/-- The Reset step (R98): `arch <- reset_values; pending <- []`, and `rst_n` is 0 from here on. -/
def resetStep (s : State) : Host.Outcome State Fault Refusal :=
  .next { s with arch := Arch.reset, pending := [], rstN := false, live := true }

/-- `rst_n` returns to 1 (R99). -/
def releaseStep (s : State) : Host.Outcome State Fault Refusal := .next { s with rstN := true }

/-- A loss of power (R97): the block's state is unspecified until the next reset (93 U4, log 11). -/
def powerLossStep (s : State) : Host.Outcome State Fault Refusal :=
  .next (State.drawn 4 { s with arch := powerUpArch s.draws, pending := Config.powerUpPending s.draws, live := false })

/-- What an event does once a reset has been taken since power-up. -/
def liveEvent (e : Event) (s : State) : Host.Outcome State Fault Refusal :=
  match e with
  | .offer b => offerStep b s
  | .withdraw => withdrawStep s
  | .edge => acceptStep s
  | .retire => retireStep s
  | .read sel => readStep sel s
  | .assertReset => resetStep s
  | .releaseReset => releaseStep s
  | .powerLoss => powerLossStep s

/-- What an event does before the first reset after power-up (R101, 93 U4): only a Reset step has a meaning. -/
def unresetEvent (e : Event) (s : State) : Host.Outcome State Fault Refusal :=
  match e with
  | .assertReset => resetStep s
  | .powerLoss => powerLossStep s
  | .offer _ => .refused .noResetSincePowerUp
  | .withdraw => .refused .noResetSincePowerUp
  | .edge => .refused .noResetSincePowerUp
  | .retire => .refused .noResetSincePowerUp
  | .read _ => .refused .noResetSincePowerUp
  | .releaseReset => .refused .noResetSincePowerUp

/-- One scheduled event. -/
def eventStep (e : Event) (s : State) : Host.Outcome State Fault Refusal :=
  if s.live then liveEvent e s else unresetEvent e s

/-- The step with nothing scheduled (DESIGN CHOICE, log 2): the oldest pending command retires; with none pending a standing
offer is accepted; with neither the block stays as it is (R97, R101, R108). -/
def quietStep (s : State) : Host.Outcome State Fault Refusal :=
  if s.live then
    match s.pending with
    | _ :: _ => retireStep s
    | [] => acceptStep s
  else .refused .noResetSincePowerUp

/-- The state in which `b` is the next command to retire and the next step retires it (log 3). An accepted command means that
`rst_n` = 1 and a reset has been taken. -/
def State.withNextCommand (b : Beat) (s : State) : State :=
  { s with pending := b :: s.pending, schedule := .retire :: s.schedule, rstN := true, live := true }

end Sys2Proof.Machine
end

