-- ==== Sys2Proof/Machine/Step.lean ====
section
/-! DEFINITION. One step of the machine (70_reset_and_hazards.md, section 1): the first scheduled event, or the quiet step. -/

namespace Sys2Proof.Machine

/-- One step: the first event of the schedule, which it uses up; with none scheduled, the quiet step. -/
def step (s : State) : Host.Outcome State Fault Refusal :=
  match s.schedule with
  | [] => quietStep s
  | e :: rest => eventStep e { s with schedule := rest }

/-- `s` with the command of that table word placed where `step` takes its next command: at the head of the pending list, with
its retirement next (log 3). -/
def State.withFetchWord (s : State) (nbits w : Nat) : State := s.withNextCommand (beatOfTableWord nbits w)

end Sys2Proof.Machine
end

