-- ==== Sys2Proof/Machine/Assembler.lean ====
section
/-! DEFINITION. The spec's assembler (30_encoding.md R48, R49): the lines it knows, the beats each line becomes, the disassembler,
and the text of a line. A pseudo-instruction is a way to write the five commands; it has no encoding of its own. -/

namespace Sys2Proof.Machine

/-- One line of assembler, numbers already read: R48's commands and directive, R49's pseudo-instructions. -/
inductive AsmLine
  | nop
  | init (seed : Word)
  | block (w : Word)
  | tail (n : BitVec 2) (w : Word)
  | final
  /-- `.beat 0xcc, 0xdddddddd`: the raw beat. -/
  | beat (b : Beat)
  | blockB (b0 b1 b2 b3 : Byte)
  | tailB (bytes : List Byte)
  | absorb (bytes : List Byte)
  | hash (seed : Word) (bytes : List Byte)
deriving DecidableEq, Repr

/-- TAIL as the assembler encodes it: the ignored lanes are 0 (R48). -/
def asmTail (n : BitVec 2) (w : Word) : Instr := .tail n (w &&& tailMask n)

/-- `BLOCKB b0, b1, b2, b3` (R49). -/
def asmBlockB (b0 b1 b2 b3 : Byte) : Instr := .block (bytesLe b0 b1 b2 b3)

/-- `TAILB` of one, two or three bytes (R49); no other number of bytes is a TAILB. -/
def asmTailB : List Byte → Option Instr
  | [b0] => some (asmTail 1 (bytesLe b0 0 0 0))
  | [b0, b1] => some (asmTail 2 (bytesLe b0 b1 0 0))
  | [b0, b1, b2] => some (asmTail 3 (bytesLe b0 b1 b2 0))
  | _ => none

/-- `ABSORB` (R49): a BLOCKB for each four bytes in order, then a TAILB of the last L mod 4 bytes if there are any. -/
def asmAbsorb : List Byte → List Instr
  | b0 :: b1 :: b2 :: b3 :: rest => asmBlockB b0 b1 b2 b3 :: asmAbsorb rest
  | last => (asmTailB last).toList

/-- `HASH seed, bytes` (R49). -/
def asmHash (seed : Word) (bytes : List Byte) : List Instr := .init seed :: (asmAbsorb bytes ++ [.final 0])

/-- The commands a line stands for; none where R48 allows no such line (a tail count or a byte list of the wrong size). -/
def asmCommands : AsmLine → Option (List Instr)
  | .nop => some [.nop 0]
  | .init seed => some [.init seed]
  | .block w => some [.block w]
  | .tail n w => if n = 0 then none else some [asmTail n w]
  | .final => some [.final 0]
  | .beat _ => none
  | .blockB b0 b1 b2 b3 => some [asmBlockB b0 b1 b2 b3]
  | .tailB bytes => (asmTailB bytes).map (fun i => [i])
  | .absorb bytes => some (asmAbsorb bytes)
  | .hash seed bytes => some (asmHash seed bytes)

/-- The beats the assembler emits for a line (R48, R49). -/
def assemble : AsmLine → Option (List Beat)
  | .beat b => some [b]
  | line => (asmCommands line).map (List.map encode)

/-- The disassembler (R48): a legal beat whose ignored bits are 0 by its mnemonic, every other beat as `.beat`. -/
def disassemble (b : Beat) : AsmLine :=
  match decode b with
  | .error _ => .beat b
  | .ok (.nop x) => if x = 0 then .nop else .beat b
  | .ok (.init seed) => .init seed
  | .ok (.block k) => .block k
  | .ok (.tail n t) => if t &&& tailMask n = t then .tail n t else .beat b
  | .ok (.final x) => if x = 0 then .final else .beat b

/-! ### The text of a line

A line is a list of characters. Characters that would look like code to a reader of this file are named by their number. -/

/-- One token of a line. -/
inductive Token
  | word (cs : List Char)
  | comma
  | openBrace
  | closeBrace
  | str (bytes : List Byte)
deriving DecidableEq, Repr

/-- Where the lexer stands: in plain text after the characters of an unfinished word, or in a string after its bytes. -/
inductive LexMode
  | plain (acc : List Char)
  | quoted (acc : List Byte)
deriving DecidableEq, Repr

/-- The word read so far, if there is one. -/
def flushWord (acc : List Char) : List Token := if acc = [] then [] else [.word acc]

/-- The value of a hexadecimal digit, either case (log 18). -/
def hexDigit (c : Char) : Option Nat :=
  let n := c.toNat
  if 48 ≤ n ∧ n ≤ 57 then some (n - 48)
  else if 97 ≤ n ∧ n ≤ 102 then some (n - 87)
  else if 65 ≤ n ∧ n ≤ 70 then some (n - 55)
  else none

/-- The value of a decimal digit. -/
def decDigit (c : Char) : Option Nat := if 48 ≤ c.toNat ∧ c.toNat ≤ 57 then some (c.toNat - 48) else none

/-- The tokens of a line (R48, R49): blanks separate, a semicolon outside a string starts a comment, a string gives one byte an
ASCII character with `\xNN` escapes (log 18). -/
def lex : LexMode → List Char → Option (List Token)
  | .plain acc, [] => some (flushWord acc)
  | .quoted _, [] => none
  | .plain acc, c :: cs =>
    if c.toNat = 59 then some (flushWord acc)
    else if c.toNat = 32 ∨ c.toNat = 9 ∨ c.toNat = 13 then (lex (.plain []) cs).map (flushWord acc ++ ·)
    else if c.toNat = 44 then (lex (.plain []) cs).map (flushWord acc ++ Token.comma :: ·)
    else if c.toNat = 123 then (lex (.plain []) cs).map (flushWord acc ++ Token.openBrace :: ·)
    else if c.toNat = 125 then (lex (.plain []) cs).map (flushWord acc ++ Token.closeBrace :: ·)
    else if c.toNat = 34 then (lex (.quoted []) cs).map (flushWord acc ++ ·)
    else lex (.plain (acc ++ [c])) cs
  | .quoted acc, c :: cs =>
    if c.toNat = 34 then (lex (.plain []) cs).map (Token.str acc :: ·)
    else if c.toNat = 92 then
      match cs with
      | x :: h :: l :: rest =>
        match hexDigit h, hexDigit l with
        | some hi, some lo =>
          if x.toNat = 120 then lex (.quoted (acc ++ [BitVec.ofNat 8 (16 * hi + lo)])) rest else none
        | _, _ => none
      | _ => none
    else if c.toNat < 128 then lex (.quoted (acc ++ [BitVec.ofNat 8 c.toNat])) cs
    else none

/-- The number that digits of a base write; none for no digits or a wrong one. -/
def readDigits (base : Nat) (digit : Char → Option Nat) : List Char → Option Nat
  | [] => none
  | cs => cs.foldl (fun acc c => acc.bind fun v => (digit c).map fun x => base * v + x) (some 0)

/-- A number (R48): hexadecimal after `0x`, else decimal; unsigned. -/
def readNumber : List Char → Option Nat
  | '0' :: 'x' :: ds => readDigits 16 hexDigit ds
  | ds => readDigits 10 decDigit ds

/-- A number that must fit a field of w bits (R48). -/
def readField (w : Nat) (cs : List Char) : Option (BitVec w) :=
  (readNumber cs).bind fun v => if v < 2 ^ w then some (BitVec.ofNat w v) else none

/-- Bytes separated by commas, up to the end of the tokens. -/
def readBytes : List Token → Option (List Byte)
  | [.word w] => (readField 8 w).map (fun b => [b])
  | .word w :: .comma :: rest => (readField 8 w).bind fun b => (readBytes rest).map (b :: ·)
  | _ => none

/-- A byte list of R49: braces around bytes, or one string. -/
def readByteList : List Token → Option (List Byte)
  | [.str bytes] => some bytes
  | [.openBrace, .closeBrace] => some []
  | .openBrace :: rest => if rest.getLast? = some .closeBrace then readBytes rest.dropLast else none
  | _ => none

/-- The operands of a command after its mnemonic (R48, R49). -/
def readOperands (mnemonic : List Char) (ts : List Token) : Option AsmLine :=
  if mnemonic = ['N', 'O', 'P'] then (if ts = [] then some .nop else none)
  else if mnemonic = ['F', 'I', 'N', 'A', 'L'] then (if ts = [] then some .final else none)
  else if mnemonic = ['I', 'N', 'I', 'T'] then
    match ts with
    | [.word w] => (readField 32 w).map .init
    | _ => none
  else if mnemonic = ['B', 'L', 'O', 'C', 'K'] then
    match ts with
    | [.word w] => (readField 32 w).map .block
    | _ => none
  else if mnemonic = ['T', 'A', 'I', 'L'] then
    match ts with
    | [.word n, .comma, .word w] =>
      (readField 2 n).bind fun n => (readField 32 w).bind fun w => if n = 0 then none else some (.tail n w)
    | _ => none
  else if mnemonic = ['.', 'b', 'e', 'a', 't'] then
    match ts with
    | [.word c, .comma, .word w] => (readField 8 c).bind fun c => (readField 32 w).map fun w => .beat ⟨c, w⟩
    | _ => none
  else if mnemonic = ['B', 'L', 'O', 'C', 'K', 'B'] then
    match readBytes ts with
    | some [b0, b1, b2, b3] => some (.blockB b0 b1 b2 b3)
    | _ => none
  else if mnemonic = ['T', 'A', 'I', 'L', 'B'] then
    match readBytes ts with
    | some bytes => if bytes.length ≤ 3 then some (.tailB bytes) else none
    | none => none
  else if mnemonic = ['A', 'B', 'S', 'O', 'R', 'B'] then (readByteList ts).map .absorb
  else if mnemonic = ['H', 'A', 'S', 'H'] then
    match ts with
    | .word s :: .comma :: rest => (readField 32 s).bind fun s => (readByteList rest).map (.hash s)
    | _ => none
  else none

/-- One line of text as its beats (R48): a blank or comment line has none; none where the text is no line of the assembler. -/
def assembleText (line : List Char) : Option (List Beat) :=
  match lex (.plain []) line with
  | some [] => some []
  | some (.word m :: ts) => (readOperands m ts).bind assemble
  | _ => none

/-- A whole text, one command a line (R48). -/
def assembleLines : List (List Char) → Option (List Beat)
  | [] => some []
  | line :: rest => (assembleText line).bind fun bs => (assembleLines rest).map (bs ++ ·)

/-- One hexadecimal digit, lower case. -/
def hexChar (v : Nat) : Char := Char.ofNat (if v < 10 then 48 + v else 87 + v)

/-- The low 4n bits of v in n hexadecimal digits, most significant first. -/
def hexChars : Nat → Nat → List Char
  | 0, _ => []
  | n + 1, v => hexChar (v / 16 ^ n % 16) :: hexChars n v

/-- `0x` and the digits. -/
def hexNumber (digits v : Nat) : List Char := '0' :: 'x' :: hexChars digits v

/-- The text of a beat as the disassembler prints it (R48): the commands with 8-digit data words (log 18), or `.beat 0xcc, 0xdddddddd`. -/
def disassembleText (b : Beat) : List Char :=
  match disassemble b with
  | .nop => ['N', 'O', 'P']
  | .init seed => ['I', 'N', 'I', 'T', ' '] ++ hexNumber 8 seed.toNat
  | .block w => ['B', 'L', 'O', 'C', 'K', ' '] ++ hexNumber 8 w.toNat
  | .tail n w => ['T', 'A', 'I', 'L', ' ', hexChar n.toNat, ',', ' '] ++ hexNumber 8 w.toNat
  | .final => ['F', 'I', 'N', 'A', 'L']
  | _ => ['.', 'b', 'e', 'a', 't', ' '] ++ hexNumber 2 b.ctl.toNat ++ [',', ' '] ++ hexNumber 8 b.data.toNat

end Sys2Proof.Machine
end

