-- ==== Sys2Proof/Machine/Job.lean ====
section
/-! DEFINITION. A hash job and its observation (70_reset_and_hazards.md R107): which commands are one job, and what a host that
watches the ports over a run has observed of it. The watch is no part of the block; it reads only the steps the machine takes. -/

namespace Sys2Proof.Machine

/-- The control byte of INIT (30_encoding.md R42), which begins a job. -/
def initCtl : Byte := 0x01

/-- The control byte of FINAL (30_encoding.md R42), which ends a job. -/
def finalCtl : Byte := 0x04

/-- The rest of a job after its INIT: no INIT and no FINAL until the FINAL that ends it. -/
def endsJob : List Beat → Bool
  | [] => false
  | [b] => b.ctl == finalCtl
  | b :: rest => b.ctl != initCtl && b.ctl != finalCtl && endsJob rest

/-- "A hash job is the commands from one INIT to the next FINAL" (R107). An INIT in between begins a job of its own, since it
discards the old hash (41_commands.md R81; DESIGN CHOICE, log 22). -/
def isHashJob : List Beat → Bool
  | [] => false
  | b :: rest => b.ctl == initCtl && endsJob rest

/-- The command the next step accepts (R39, R100), if it accepts one: a standing offer, outside reset, at a ready edge or at a
quiet step with nothing pending (log 2). -/
def acceptedBy (s : State) : Option Beat :=
  if s.live = true ∧ s.rstN = true ∧ (s.schedule.head? = some .edge ∨ (s.schedule = [] ∧ s.pending = [])) then s.offered
  else none

/-- The select of a settled read (R104), if the next step is one. -/
def settledReadBy (s : State) : Option (BitVec 2) :=
  if s.live = true ∧ s.rstN = true ∧ s.pending = [] then
    match s.schedule.head? with
    | some (.read sel) => some sel
    | _ => none
  else none

/-- The next step is a Reset or a loss of power. R107 says nothing about a job with a reset; the watch begins anew (DESIGN CHOICE,
log 22). -/
def interruptedBy (s : State) : Bool :=
  s.schedule.head? == some .assertReset || s.schedule.head? == some .powerLoss

/-- STATUS as the host reads it shows PHASE = DONE and ERR = 0 (R107; the fields of 10_state.md R16). -/
def statusShowsDone (v : Word) : Bool := v.extractLsb' 0 2 == phaseBits .done && !v.getLsbD 2

/-- What a host that watches the ports knows of the latest job: the commands accepted for it, oldest first, and how far its
observation has come. -/
inductive JobWatch
  /-- No job: no INIT since the watch began or was interrupted, or a command after the job's FINAL. -/
  | outside
  /-- An INIT has been accepted, and no FINAL since. -/
  | running (cmds : List Beat)
  /-- The FINAL has been accepted, and no command since. -/
  | ended (cmds : List Beat)
  /-- And a settled read of STATUS has shown PHASE = DONE and ERR = 0. -/
  | confirmed (cmds : List Beat)
  /-- And then a settled read of RESULT has answered `value`: the observation of the job. -/
  | observed (cmds : List Beat) (value : Word)
deriving DecidableEq, Repr

/-- An accepted command: an INIT begins a job, a FINAL ends the one that runs; a command accepted after
the FINAL comes between it and the reads (R107), and one accepted after the reads ends what is known of the job too (DESIGN CHOICE,
log 22). -/
def JobWatch.accept (b : Beat) : JobWatch → JobWatch
  | .running cmds =>
    if b.ctl = initCtl then .running [b] else if b.ctl = finalCtl then .ended (cmds ++ [b]) else .running (cmds ++ [b])
  | .outside => if b.ctl = initCtl then .running [b] else .outside
  | .ended _ => if b.ctl = initCtl then .running [b] else .outside
  | .confirmed _ => if b.ctl = initCtl then .running [b] else .outside
  | .observed _ _ => if b.ctl = initCtl then .running [b] else .outside

/-- A settled read that answers `v`: of STATUS after the job's end, of RESULT after that. -/
def JobWatch.read (sel : BitVec 2) (v : Word) : JobWatch → JobWatch
  | .outside => .outside
  | .running cmds => .running cmds
  | .ended cmds => if sel = 1 ∧ statusShowsDone v = true then .confirmed cmds else .ended cmds
  | .confirmed cmds => if sel = 0 then .observed cmds v else .confirmed cmds
  | .observed cmds w => .observed cmds w

/-- The watch over one step from `s` to `t`; the word read is `rd_data` after the step. -/
def watchStep (w : JobWatch) (s t : State) : JobWatch :=
  if interruptedBy s then .outside
  else match acceptedBy s with
    | some b => w.accept b
    | none => match settledReadBy s with
      | some sel => w.read sel t.rdData
      | none => w

/-- The watch over `n` steps; none where the machine does not take them. -/
def watchRun : Nat → JobWatch → State → Option JobWatch
  | 0, w, _ => some w
  | n + 1, w, s =>
    match step s with
    | .next t => watchRun n (watchStep w s t) t
    | .fault _ => none
    | .refused _ => none

/-- The observation of the latest hash job (R107) after `n` steps from `s`, watched from the first: the job's commands and the
value observed. None where no job has been observed, or a command has been accepted or a reset or a loss of power has come
since (log 22). -/
def hashJobObservation (n : Nat) (s : State) : Option (List Beat × Word) :=
  match watchRun n .outside s with
  | some (.observed cmds v) => some (cmds, v)
  | _ => none

end Sys2Proof.Machine
end

