-- ==== Sys2Proof/Machine/Reference.lean ====
section
/-! DEFINITION. The function the block computes: the source's murmur3_32 as 40_datapath.md R59 transcribes it, with the partition
of R60. It is what the command sequence is held against (41_commands.md R80). -/

namespace Sys2Proof.Machine

/-- Byte i of the input (R28). Inside the input's length it is the byte; R59 reads no byte outside it. -/
def byteAt (d : List Byte) (i : Nat) : Byte := d.getD i 0

/-- The j-th block word of the input (R29, R59). -/
def blockWord (d : List Byte) (j : Nat) : Word :=
  bytesLe (byteAt d (4 * j)) (byteAt d (4 * j + 1)) (byteAt d (4 * j + 2)) (byteAt d (4 * j + 3))

/-- The tail word (R59, step 5): the L mod 4 bytes after the last full block, zero filled. -/
def tailWord (d : List Byte) : Word :=
  let nb := d.length / 4
  let r := d.length % 4
  bytesLe (byteAt d (4 * nb)) (if r > 1 then byteAt d (4 * nb + 1) else 0) (if r > 2 then byteAt d (4 * nb + 2) else 0) 0

/-- `murmur3_32(d, seed)` (R59), steps 2 to 7. -/
def murmur3 (d : List Byte) (seed : Word) : Word :=
  let h := (List.range (d.length / 4)).foldl (fun h j => hmix h (blockWord d j)) seed
  let h := if d.length % 4 ≠ 0 then xorMix h (kmix (tailWord d)) else h
  finalMix h (BitVec.ofNat 32 d.length)

end Sys2Proof.Machine
end

