-- ==== Sys2Proof/Safety.lean ====
section
/-! DEFINITION. The terms claims are stated in: the invariant of the machine, a settled state (70_reset_and_hazards.md R105), and the
state after the pending commands have retired. -/

namespace Sys2Proof.Machine

/-- What every step keeps of the registers. ERR and ECODE agree and ECODE is one of R86's codes (R17, R18; 93 U7); in IDLE the
registers still hold their reset values (R14, R25); the bytes absorbed are whole blocks in ABSORB and not in TAILED (R70, R71);
in DONE, RESULT is H (R72). -/
abbrev Arch.Inv (a : Arch) : Prop :=
  (a.err = true ↔ a.ecode ≠ 0) ∧ a.ecode.toNat ≤ 4 ∧
  (a.phase = .idle → a.h = 0 ∧ a.len = 0 ∧ a.result = 0) ∧
  (a.phase = .absorb → a.len.toNat % 4 = 0) ∧
  (a.phase = .tailed → a.len.toNat % 4 ≠ 0) ∧
  (a.phase = .done → a.result = a.h)

/-- The invariant of the machine: between a reset and a loss of power the registers keep `Arch.Inv`, and while `rst_n` = 0 they
hold their reset values with nothing pending (R98). -/
abbrev State.Inv (s : State) : Prop :=
  s.live = true → s.arch.Inv ∧ (s.rstN = false → s.arch = Arch.reset ∧ s.pending = [])

/-- A state whose next read is settled (R104): out of reset and nothing pending. -/
abbrev State.Settled (s : State) : Prop := s.live = true ∧ s.rstN = true ∧ s.pending = []

/-- The next state of an outcome; `s` where there is none. -/
def nextOr (s : State) : Host.Outcome State Fault Refusal → State
  | .next t => t
  | .fault _ => s
  | .refused _ => s

/-- The state after these commands have taken their effect one after the other (R35). -/
def retireAll : List Beat → State → State
  | [], s => s
  | b :: rest, s => retireAll rest (nextOr s (execBeat b s))

/-- The registers after every pending command has retired (R23, R35). -/
def settledArch (s : State) : Arch := (retireAll s.pending s).arch

/-- `n` steps of the machine the host runs. -/
def runSteps (n : Nat) (s : State) : Host.Outcome State Fault Refusal := Host.Core.run Sys2Proof.core n s

/-- The events that are neither an Accept step nor a Reset step nor a loss of power: what may come between two settled reads
without changing what they return (R105). -/
def Event.isQuiet : Event → Bool
  | .offer _ => true
  | .withdraw => true
  | .edge => false
  | .retire => true
  | .read _ => true
  | .assertReset => false
  | .releaseReset => true
  | .powerLoss => false

/-- The events that are reads. -/
def Event.isRead : Event → Bool
  | .read _ => true
  | .offer _ => false
  | .withdraw => false
  | .edge => false
  | .retire => false
  | .assertReset => false
  | .releaseReset => false
  | .powerLoss => false

end Sys2Proof.Machine
end

