-- ==== Sys2Proof/Certificates/Slice0/Obligations.lean ====
section
/-! DEFINITION. The statements for the provers. Each docstring names the rule of spec/ it formalises, or says that it is derived. -/

open Sys2Proof Sys2Proof.Machine

/-! ### The datapath (40_datapath.md) -/

/-- Derived from 10_state.md R22 (its table): the constants, each with its value and the unit that uses it. -/
def Obligations.ConstantTableAndItsUsers : Prop :=
  constC1 = 0xcc9e2d51 ∧ constC2 = 0x1b873593 ∧ rotKey = 15 ∧ rotAcc = 13 ∧ mulAcc = 5 ∧ addAcc = 0xe6546b64 ∧
  constF1 = 0x85ebca6b ∧ constF2 = 0xc2b2ae35 ∧ shiftS1 = 16 ∧ shiftS2 = 13 ∧ shiftS3 = 16 ∧
  (∀ k, kmix k = mac (rotl (mac k 0xcc9e2d51 0) 15) 0x1b873593 0) ∧
  (∀ h k, hmix h k = mac (rotl (xorMix h (kmix k)) 13) 5 0xe6546b64) ∧
  (∀ h, fmix h = xorshift (mac (xorshift (mac (xorshift h 16) 0x85ebca6b 0) 13) 0xc2b2ae35 0) 16)

/-- R50: the product and the sum are exact before the reduction modulo 2^32; the high half and the carry are discarded; the
operands may be read as signed. -/
def Obligations.MacIsExactModulo2Pow32 : Prop :=
  (∀ a b c : Word,
    (mac a b c).toNat = (a.toNat * b.toNat + c.toNat) % 2 ^ 32 ∧
    mac a b c = (a.setWidth 64 * b.setWidth 64).extractLsb' 0 32 + c ∧
    mac a b c = BitVec.ofInt 32 (a.toInt * b.toInt + c.toInt) ∧
    mac a b 0 = a * b) ∧
  mac 0xffffffff 0xffffffff 0 = 0x00000001 ∧ mac 0x80000000 2 0 = 0 ∧ mac 0xffffffff 1 1 = 0 ∧
  mac 0x0000002a 5 0xe6546b64 = 0xe6546c36

/-- R51: the source's formula with both amounts taken modulo 32; bit i of the result is bit (i - r) mod 32 of x; the corner
cases and the examples. -/
def Obligations.RotlMovesBitsModulo32 : Prop :=
  (∀ (x : Word) (r : Nat),
    rotl x r = (x <<< (r % 32)) ||| (x >>> ((32 - (r : Int)) % 32).toNat) ∧
    (∀ i : Nat, i < 32 → (rotl x r).getLsbD i = x.getLsbD (((i : Int) - (r : Int)) % 32).toNat) ∧
    (r % 32 = 0 → rotl x r = x) ∧ rotl x 32 = x ∧ rotl 0 r = 0 ∧ rotl 0xffffffff r = 0xffffffff) ∧
  rotKey = 15 ∧ rotAcc = 13 ∧ rotl 0x12345678 13 = 0x8acf0246 ∧ rotl 0x12345678 15 = 0x2b3c091a

/-- R52: bitwise exclusive OR, its corner cases and its example. -/
def Obligations.XorMixIsBitwise : Prop :=
  (∀ a b : Word,
    (∀ i : Nat, i < 32 → (xorMix a b).getLsbD i = (a.getLsbD i ^^ b.getLsbD i)) ∧
    xorMix a a = 0 ∧ xorMix a 0 = a ∧ xorMix a b = xorMix b a) ∧
  xorMix 0xdeadbeef 0x12345678 = 0xcc99e897

/-- R53: the shift is a right shift with zero fill, so the top s bits of the result are those of x; the corner cases and the
examples. -/
def Obligations.XorshiftKeepsTheTopBits : Prop :=
  (∀ (x : Word) (s : Nat),
    xorshift x s = x ^^^ (x >>> s) ∧
    (∀ i : Nat, i < 32 → 32 - s ≤ i → (xorshift x s).getLsbD i = x.getLsbD i) ∧ xorshift 0 s = 0) ∧
  shiftS1 = 16 ∧ shiftS2 = 13 ∧ shiftS3 = 16 ∧
  xorshift 0xffffffff 16 = 0xffff0000 ∧ xorshift 0xffffffff 13 = 0xfff80000 ∧
  xorshift 0x12345678 16 = 0x1234444c ∧ xorshift 0x12345678 13 = 0x1234c7da

/-- R54: the three steps of the key mix, its corner cases (it is a bijection) and its example step by step. -/
def Obligations.KmixStepsAndBijection : Prop :=
  (∀ k t1 t2 : Word, t1 = mac k 0xcc9e2d51 0 → t2 = rotl t1 15 → kmix k = mac t2 0x1b873593 0) ∧
  kmix 0 = 0 ∧ Function.Bijective kmix ∧
  mac 0x6c6c6568 0xcc9e2d51 0 = 0xd24f5de8 ∧ rotl 0xd24f5de8 15 = 0xaef46927 ∧ kmix 0x6c6c6568 = 0xa0ae7465

/-- R55: the three steps of the accumulator mix, the case where the XOR cancels, and its example step by step. -/
def Obligations.HmixStepsAndCancellation : Prop :=
  (∀ h k u1 u2 : Word, u1 = h ^^^ kmix k → u2 = rotl u1 13 → hmix h k = mac u2 5 0xe6546b64) ∧
  hmix 0 0 = 0xe6546b64 ∧ (∀ h k : Word, h = kmix k → hmix h k = 0xe6546b64) ∧
  kmix 0x87654321 = 0x5082edee ∧ hmix 0x5082edee 0x87654321 = 0xe6546b64 ∧
  0x0000002a ^^^ kmix 0x6c6c6568 = 0xa0ae744f ∧ rotl 0xa0ae744f 13 = 0xce89f415 ∧
  hmix 0x0000002a 0x6c6c6568 = 0xef062fcd

/-- R56: the five steps of the avalanche stage, its corner cases (it is a bijection) and its example step by step. -/
def Obligations.FmixStepsAndBijection : Prop :=
  (∀ h v1 v2 v3 v4 : Word, v1 = xorshift h 16 → v2 = mac v1 0x85ebca6b 0 → v3 = xorshift v2 13 →
    v4 = mac v3 0xc2b2ae35 0 → fmix h = xorshift v4 16) ∧
  fmix 0 = 0 ∧ fmix 1 = 0x514e28b7 ∧ fmix 0xffffffff = 0x81f16f39 ∧ Function.Bijective fmix ∧
  xorshift 1 16 = 0x00000001 ∧ mac 0x00000001 0x85ebca6b 0 = 0x85ebca6b ∧ xorshift 0x85ebca6b 13 = 0x85efe535 ∧
  mac 0x85efe535 0xc2b2ae35 0 = 0x514e79f9 ∧ xorshift 0x514e79f9 16 = 0x514e28b7

/-- R57: the length is XORed in before the avalanche stage; with length 0 it is the hash of the empty input; the example step by
step. -/
def Obligations.FinalMixFoldsInTheLength : Prop :=
  (∀ h len : Word, finalMix h len = fmix (h ^^^ len)) ∧ finalMix 0 0 = 0 ∧
  (∀ seed : Word, finalMix seed 0 = fmix seed ∧ murmur3 [] seed = fmix seed) ∧
  (0x07ff5c6c : Word) ^^^ 11 = 0x07ff5c67 ∧ xorshift 0x07ff5c67 16 = 0x07ff5b98 ∧
  mac 0x07ff5b98 0x85ebca6b 0 = 0xe2893888 ∧ xorshift 0xe2893888 13 = 0xe28e2cc1 ∧
  mac 0xe28e2cc1 0xc2b2ae35 0 = 0xea0c71f5 ∧ finalMix 0x07ff5c6c 11 = 0xea0c9bf9

/-- R58: the tail key is the low n bytes of the data word, each in its lane, and nothing else of the word matters. -/
def Obligations.TailKeyIsTheLowLanes : Prop :=
  (∀ (n : BitVec 2) (data : Word),
    tailKey n data = data &&& BitVec.ofNat 32 (2 ^ (8 * n.toNat) - 1) ∧
    (∀ i : Nat, i < n.toNat → lane (tailKey n data) i = lane data i) ∧
    (∀ i : Nat, 8 * n.toNat ≤ i → (tailKey n data).getLsbD i = false) ∧
    (∀ data' : Word, (∀ i : Nat, i < n.toNat → lane data i = lane data' i) → tailKey n data = tailKey n data')) ∧
  tailKey 3 0xffffffff = 0x00ffffff ∧ tailKey 1 0xffffff21 = 0x00000021 ∧ tailKey 2 0xffff4321 = 0x00004321 ∧
  tailKey 3 0xff654321 = 0x00654321

/-- Derived from 20_memory.md R28 and R29 and 00_scope.md R9: lane i of a little-endian word is its i-th byte, and a word is the
little-endian word of its lanes, so the block word is the data word itself. -/
def Obligations.BlockWordIsTheDataWord : Prop :=
  (∀ b0 b1 b2 b3 : Byte,
    lane (bytesLe b0 b1 b2 b3) 0 = b0 ∧ lane (bytesLe b0 b1 b2 b3) 1 = b1 ∧
    lane (bytesLe b0 b1 b2 b3) 2 = b2 ∧ lane (bytesLe b0 b1 b2 b3) 3 = b3) ∧
  (∀ w : Word, bytesLe (lane w 0) (lane w 1) (lane w 2) (lane w 3) = w)

/-- R66: two seeds give different hashes of some input; the witness is the empty input under seeds 0 and 1. -/
def Obligations.SeedChangesTheHash : Prop :=
  (∃ (d : List Byte) (seed1 seed2 : Word), seed1 ≠ seed2 ∧ murmur3 d seed1 ≠ murmur3 d seed2) ∧
  murmur3 [] 0 = 0x00000000 ∧ murmur3 [] 1 = 0x514e28b7

/-- Derived from R54 to R57 and R59: for every input, two different seeds give two different hashes. -/
def Obligations.HashIsInjectiveInTheSeed : Prop := ∀ d : List Byte, Function.Injective (murmur3 d)

/-! ### The encoding (30_encoding.md) -/

/-- R40: the fields of the 40-bit beat; in a legal command RSV is 0 and only TAIL uses N. -/
def Obligations.BeatFieldsOfTheFortyBits : Prop :=
  (∀ b : Beat,
    b.bits = b.ctl ++ b.data ∧ ctlOp b.ctl = b.bits.extractLsb' 32 3 ∧ ctlN b.ctl = b.bits.extractLsb' 35 2 ∧
    ctlRsv b.ctl = b.bits.extractLsb' 37 3 ∧ b.data = b.bits.extractLsb' 0 32 ∧
    ctlOp b.ctl = b.ctl.extractLsb' 0 3 ∧ ctlN b.ctl = b.ctl.extractLsb' 3 2 ∧ ctlRsv b.ctl = b.ctl.extractLsb' 5 3) ∧
  (∀ v : BitVec 40, (Beat.ofBits v).bits = v) ∧
  (∀ (b : Beat) (i : Instr), decode b = .ok i → ctlRsv b.ctl = 0b000#3 ∧ ((∀ n t, i ≠ .tail n t) → ctlN b.ctl = 0))

/-- Derived from R40 to R42: decoding an encoded well-formed command gives it back, with every operand at every value, the
ignored data bits too, which a command carries by the model's choice (log 13). -/
def Obligations.DecodeOfEncodeIsTheCommand : Prop :=
  ∀ i : Instr, i.wellFormed = true → decode (encode i) = .ok i

/-- Derived from R40 to R45, with the model's choice that a command carries its ignored data bits (log 13): a beat that decodes is the
encoding of the well-formed command it decodes to. That NOP, FINAL and TAIL with ignored bits that are not 0 come back whole, so that
no two beats decode to one term, rests on that choice alone: for the spec such beats are one command with one effect (R41, R46, R48). -/
def Obligations.EncodeOfDecodeIsTheBeat : Prop :=
  ∀ (b : Beat) (i : Instr), decode b = .ok i → encode i = b ∧ i.wellFormed = true

/-- R42: each row of the opcode map by its match and mask, the operands of TAIL, and the legal control bytes. -/
def Obligations.OpcodeMapMatchAndMask : Prop :=
  ∀ b : Beat,
    (decode b = .ok (.nop b.data) ↔ b.bits &&& 0xff00000000#40 = 0x0000000000#40) ∧
    (decode b = .ok (.init b.data) ↔ b.bits &&& 0xff00000000#40 = 0x0100000000#40) ∧
    (decode b = .ok (.block b.data) ↔ b.bits &&& 0xff00000000#40 = 0x0200000000#40) ∧
    ((∃ n : BitVec 2, n ≠ 0 ∧ decode b = .ok (.tail n b.data)) ↔
      b.bits &&& 0xe700000000#40 = 0x0300000000#40 ∧ b.bits.extractLsb' 35 2 ≠ 0) ∧
    (decode b = .ok (.final b.data) ↔ b.bits &&& 0xff00000000#40 = 0x0400000000#40) ∧
    (∀ (n : BitVec 2) (t : Word), decode b = .ok (.tail n t) → n = b.bits.extractLsb' 35 2 ∧ t = b.bits.extractLsb' 0 32) ∧
    ((∃ i, decode b = .ok i) ↔
      b.ctl = 0x00 ∨ b.ctl = 0x01 ∨ b.ctl = 0x02 ∨ b.ctl = 0x0b ∨ b.ctl = 0x13 ∨ b.ctl = 0x1b ∨ b.ctl = 0x04)

/-- 60_exceptions.md R87: the decode check, on the fields read as numbers, for every control byte; the data word is never
checked. -/
def Obligations.DecodeCheckInItsOrder : Prop :=
  (∀ ctl : Byte,
    decodeCheck ctl =
      if ctl.toNat % 8 = 5 ∨ ctl.toNat % 8 = 6 ∨ ctl.toNat % 8 = 7 then some .illegalOp
      else if ctl.toNat / 32 ≠ 0 ∨ (ctl.toNat % 8 ≠ 3 ∧ ctl.toNat / 8 % 4 ≠ 0) then some .reservedField
      else if ctl.toNat % 8 = 3 ∧ ctl.toNat / 8 % 4 = 0 then some .tailZero
      else none) ∧
  (∀ (ctl : Byte) (data data' : Word) (e : CmdError), decode ⟨ctl, data⟩ = .error e → decode ⟨ctl, data'⟩ = .error e)

/-- R43, R44, R45: with ERR = 0 an illegal beat is not performed and raises its error, whatever its data word. -/
def Obligations.IllegalBeatsRaiseTheirCode : Prop :=
  ∀ (ctl : Byte) (data : Word) (s : State), s.arch.err = false →
    (ctl.toNat % 8 = 5 ∨ ctl.toNat % 8 = 6 ∨ ctl.toNat % 8 = 7 →
      execBeat ⟨ctl, data⟩ s = .next { s with arch := { s.arch with err := true, ecode := 1 } }) ∧
    (ctl.toNat % 8 ≤ 4 → (ctl.toNat / 32 ≠ 0 ∨ (ctl.toNat % 8 ≠ 3 ∧ ctl.toNat / 8 % 4 ≠ 0)) →
      execBeat ⟨ctl, data⟩ s = .next { s with arch := { s.arch with err := true, ecode := 2 } }) ∧
    (ctl = 0x03 → execBeat ⟨ctl, data⟩ s = .next { s with arch := { s.arch with err := true, ecode := 3 } })

/-- R46: the ignored data bits of NOP and FINAL and the ignored lanes of TAIL take any value and have no effect, and NOP is the
only command with no effect. -/
def Obligations.IgnoredBitsHaveNoEffect : Prop :=
  (∀ (x y : Word) (s : State), exec (.nop x) s = exec (.nop y) s ∧ exec (.final x) s = exec (.final y) s) ∧
  (∀ (n : BitVec 2) (t t' : Word) (s : State), t &&& tailMask n = t' &&& tailMask n →
    exec (.tail n t) s = exec (.tail n t') s) ∧
  (∀ (x : Word), decode ⟨0x00, x⟩ = .ok (.nop x) ∧ decode ⟨0x04, x⟩ = .ok (.final x) ∧ decode ⟨0x0b, x⟩ = .ok (.tail 1 x) ∧
    decode ⟨0x13, x⟩ = .ok (.tail 2 x) ∧ decode ⟨0x1b, x⟩ = .ok (.tail 3 x)) ∧
  (∀ i : Instr, i.wellFormed = true → ((∀ s : State, exec i s = .next s) ↔ ∃ x, i = .nop x))

/-- Derived from R42, words written out from its encodings (95_test_vectors.md sections 2.10 and 2.11). -/
def Obligations.SampleBeatsDecode : Prop :=
  decode ⟨0b00000000, 0xdeadbeef⟩ = .ok (.nop 0xdeadbeef) ∧
  decode ⟨0b00000001, 0x0000002a⟩ = .ok (.init 0x0000002a) ∧
  decode ⟨0b00000010, 0x6c6c6568⟩ = .ok (.block 0x6c6c6568) ∧
  decode ⟨0b00001011, 0xffffff21⟩ = .ok (.tail 1 0xffffff21) ∧
  decode ⟨0b00010011, 0x00000001⟩ = .ok (.tail 2 0x00000001) ∧
  decode ⟨0b00011011, 0x00646c72⟩ = .ok (.tail 3 0x00646c72) ∧
  decode ⟨0b00000100, 0xdeadbeef⟩ = .ok (.final 0xdeadbeef) ∧
  decode ⟨0b11100101, 0⟩ = .error .illegalOp ∧ decode ⟨0b00100011, 0⟩ = .error .reservedField ∧
  decode ⟨0b00000011, 0⟩ = .error .tailZero

/-- Derived from R48: assembling what the disassembler prints for a beat gives that beat, for every beat, legal or not. -/
def Obligations.AssembleOfDisassembleIsTheBeat : Prop := ∀ b : Beat, assemble (disassemble b) = some [b]

/-- Derived from R49 and 40_datapath.md R59, R60: the expansion of ABSORB, block by block and then the tail, and of HASH. -/
def Obligations.AbsorbExpandsToBlocksAndATail : Prop :=
  ∀ (seed : Word) (d : List Byte),
    asmAbsorb d =
      (List.range (d.length / 4)).map (fun j => Instr.block (blockWord d j)) ++
        (if d.length % 4 = 0 then [] else [.tail (BitVec.ofNat 2 (d.length % 4)) (tailWord d)]) ∧
    asmHash seed d = [.init seed] ++ asmAbsorb d ++ [.final 0]

/-! ### The commands (41_commands.md) -/

/-- R67: the effect of one accepted command, in the order of the rule's pseudocode. -/
def Obligations.ExecDropsThenChecksThenPerforms : Prop :=
  ∀ (b : Beat) (s : State),
    execBeat b s =
      if s.arch.err = true ∧ ¬(decodeCheck b.ctl = none ∧ b.ctl.extractLsb' 0 3 = 0b001#3) then .next s
      else match decodeCheck b.ctl with
        | some e => .next (s.mapArch (raiseCmdError e))
        | none =>
          if b.ctl.extractLsb' 0 3 = 0b000#3 then .next s
          else if b.ctl.extractLsb' 0 3 = 0b001#3 then .next (s.mapArch (initEffect b.data))
          else if b.ctl.extractLsb' 0 3 = 0b010#3 then
            if s.arch.phase ≠ .absorb then .next (s.mapArch (raiseCmdError .sequence))
            else .next (s.mapArch (blockEffect b.data))
          else if b.ctl.extractLsb' 0 3 = 0b011#3 then
            if s.arch.phase ≠ .absorb then .next (s.mapArch (raiseCmdError .sequence))
            else .next (s.mapArch (tailEffect (b.ctl.extractLsb' 3 2) b.data))
          else
            if s.arch.phase ≠ .absorb ∧ s.arch.phase ≠ .tailed then .next (s.mapArch (raiseCmdError .sequence))
            else .next (s.mapArch finalEffect)

/-- R68: NOP changes nothing, in every phase and with ERR = 1 too; its encoding and its one error. -/
def Obligations.NopCompletesUnchanged : Prop :=
  (∀ (x : Word) (s : State), exec (.nop x) s = .next s) ∧
  (∀ x : Word, decode ⟨0x00, x⟩ = .ok (.nop x)) ∧
  (∀ (ctl : Byte) (data : Word), ctl.extractLsb' 0 3 = 0b000#3 → ctl.extractLsb' 3 5 ≠ 0 →
    decode ⟨ctl, data⟩ = .error .reservedField)

/-- R69: INIT completes in every phase and with ERR = 1, and is the only command performed while ERR = 1; the registers it
leaves; two in a row leave the state of the second; its encoding, its one error and its example. -/
def Obligations.InitCompletesFromEveryState : Prop :=
  (∀ (seed : Word) (s : State), exec (.init seed) s =
    .next { s with arch :=
      { h := seed, len := 0, phase := .absorb, result := s.arch.result, err := false, ecode := 0 } }) ∧
  (∀ (i : Instr) (s : State), s.arch.err = true → (∀ seed, i ≠ .init seed) → exec i s = .next s) ∧
  (∀ (seed seed' : Word) (s t : State), exec (.init seed) s = .next t → exec (.init seed') t = exec (.init seed') s) ∧
  (∀ seed : Word, decode ⟨0x01, seed⟩ = .ok (.init seed)) ∧
  (∀ (ctl : Byte) (data : Word), ctl.extractLsb' 0 3 = 0b001#3 → ctl.extractLsb' 3 5 ≠ 0 →
    decode ⟨ctl, data⟩ = .error .reservedField) ∧
  exec (.init 0x2a) State.reset = .next { State.reset with arch :=
    { h := 0x0000002a, len := 0, phase := .absorb, result := 0, err := false, ecode := 0 } }

/-- R70: in ABSORB with ERR = 0 BLOCK completes with H mixed and LEN advanced by 4 modulo 2^32; outside ABSORB it raises
SEQUENCE; its encoding, its other error, its corner cases and its example. -/
def Obligations.BlockCompletesInAbsorb : Prop :=
  (∀ (k : Word) (s : State), s.arch.err = false → s.arch.phase = .absorb →
    exec (.block k) s = .next { s with arch := { s.arch with h := hmix s.arch.h k, len := s.arch.len + 4 } }) ∧
  (∀ (k : Word) (s : State), s.arch.err = false → s.arch.phase ≠ .absorb →
    exec (.block k) s = .next { s with arch := { s.arch with err := true, ecode := 4 } }) ∧
  (∀ k : Word, decode ⟨0x02, k⟩ = .ok (.block k)) ∧
  (∀ (ctl : Byte) (data : Word), ctl.extractLsb' 0 3 = 0b010#3 → ctl.extractLsb' 3 5 ≠ 0 →
    decode ⟨ctl, data⟩ = .error .reservedField) ∧
  hmix 0 0 = 0xe6546b64 ∧ (0xfffffffc : Word) + 4 = 0 ∧ (∀ k : Word, hmix (kmix k) k = 0xe6546b64) ∧
  (∀ s : State, s.arch.err = false → s.arch.phase = .absorb → s.arch.h = 0x0000002a → s.arch.len = 0 →
    exec (.block 0x6c6c6568) s = .next { s with arch := { s.arch with h := 0xef062fcd, len := 4 } })

/-- R71: in ABSORB with ERR = 0 TAIL completes with the key mixed in by XOR only, LEN advanced by n and PHASE = TAILED; outside
ABSORB it raises SEQUENCE; its encodings, its other errors, its corner cases and its example. -/
def Obligations.TailCompletesInAbsorb : Prop :=
  (∀ (n : BitVec 2) (t : Word) (s : State), s.arch.err = false → s.arch.phase = .absorb →
    exec (.tail n t) s = .next { s with arch :=
      { s.arch with h := s.arch.h ^^^ kmix (tailKey n t), len := s.arch.len + n.setWidth 32, phase := .tailed } }) ∧
  (∀ (n : BitVec 2) (t : Word) (s : State), s.arch.err = false → s.arch.phase ≠ .absorb →
    exec (.tail n t) s = .next { s with arch := { s.arch with err := true, ecode := 4 } }) ∧
  (∀ t : Word, decode ⟨0x0b, t⟩ = .ok (.tail 1 t) ∧ decode ⟨0x13, t⟩ = .ok (.tail 2 t) ∧ decode ⟨0x1b, t⟩ = .ok (.tail 3 t)) ∧
  (∀ t : Word, decode ⟨0x03, t⟩ = .error .tailZero) ∧
  (∀ (ctl : Byte) (data : Word), ctl.extractLsb' 0 3 = 0b011#3 → ctl.extractLsb' 5 3 ≠ 0 →
    decode ⟨ctl, data⟩ = .error .reservedField) ∧
  (∀ (n : BitVec 2) (t t' : Word) (s : State), (∀ i : Nat, i < n.toNat → lane t i = lane t' i) →
    exec (.tail n t) s = exec (.tail n t') s) ∧
  (∀ (n : BitVec 2) (t : Word) (s : State), s.arch.err = false → s.arch.phase = .absorb → tailKey n t = 0 →
    exec (.tail n t) s = .next { s with arch := { s.arch with len := s.arch.len + n.setWidth 32, phase := .tailed } }) ∧
  kmix 0x00646c72 = 0x25a036db ∧
  (∀ s : State, s.arch.err = false → s.arch.phase = .absorb → s.arch.h = 0x225f6ab7 → s.arch.len = 8 →
    exec (.tail 3 0x00646c72) s = .next { s with arch := { s.arch with h := 0x07ff5c6c, len := 11, phase := .tailed } })

/-- R72: in ABSORB or TAILED with ERR = 0 FINAL completes with the finalized hash in H and RESULT, LEN kept and PHASE = DONE;
elsewhere it raises SEQUENCE; its encoding, its other error, its corner cases and its example. -/
def Obligations.FinalCompletesInAbsorbOrTailed : Prop :=
  (∀ (x : Word) (s : State), s.arch.err = false → (s.arch.phase = .absorb ∨ s.arch.phase = .tailed) →
    exec (.final x) s = .next { s with arch :=
      { s.arch with h := fmix (s.arch.h ^^^ s.arch.len), result := fmix (s.arch.h ^^^ s.arch.len), phase := .done } }) ∧
  (∀ (x : Word) (s : State), s.arch.err = false → (s.arch.phase = .idle ∨ s.arch.phase = .done) →
    exec (.final x) s = .next { s with arch := { s.arch with err := true, ecode := 4 } }) ∧
  (∀ x : Word, decode ⟨0x04, x⟩ = .ok (.final x)) ∧
  (∀ (ctl : Byte) (data : Word), ctl.extractLsb' 0 3 = 0b100#3 → ctl.extractLsb' 3 5 ≠ 0 →
    decode ⟨ctl, data⟩ = .error .reservedField) ∧
  (∀ (seed x : Word) (s t : State), exec (.init seed) s = .next t → ∃ u, exec (.final x) t = .next u ∧ u.arch.result = fmix seed) ∧
  fmix 0 = 0 ∧
  (∀ s : State, s.arch.err = false → s.arch.phase = .tailed → s.arch.h = 0x07ff5c6c → s.arch.len = 11 →
    exec (.final 0) s = .next { s with arch := { s.arch with h := 0xea0c9bf9, result := 0xea0c9bf9, phase := .done } })

/-- R82, and 60_exceptions.md R88: with ERR = 0, which command is performed in which phase, and which raises SEQUENCE there. -/
def Obligations.LegalityOfEachCommandInEachPhase : Prop :=
  ∀ s : State, s.arch.err = false →
    (∀ x, exec (.nop x) s = .next s) ∧
    (∀ seed, exec (.init seed) s = .next (s.mapArch (initEffect seed)) ∧ (initEffect seed s.arch).phase = .absorb) ∧
    (∀ k, (s.arch.phase = .absorb → exec (.block k) s = .next (s.mapArch (blockEffect k)) ∧
        (blockEffect k s.arch).phase = .absorb) ∧
      (s.arch.phase = .idle ∨ s.arch.phase = .tailed ∨ s.arch.phase = .done →
        exec (.block k) s = .next { s with arch := { s.arch with err := true, ecode := 4 } })) ∧
    (∀ n t, (s.arch.phase = .absorb → exec (.tail n t) s = .next (s.mapArch (tailEffect n t)) ∧
        (tailEffect n t s.arch).phase = .tailed) ∧
      (s.arch.phase = .idle ∨ s.arch.phase = .tailed ∨ s.arch.phase = .done →
        exec (.tail n t) s = .next { s with arch := { s.arch with err := true, ecode := 4 } })) ∧
    (∀ x, (s.arch.phase = .absorb ∨ s.arch.phase = .tailed → exec (.final x) s = .next (s.mapArch finalEffect) ∧
        (finalEffect s.arch).phase = .done) ∧
      (s.arch.phase = .idle ∨ s.arch.phase = .done →
        exec (.final x) s = .next { s with arch := { s.arch with err := true, ecode := 4 } }))

/-- Derived from 10_state.md R26 (its table) and R31: the frame of every command. A command changes registers only; RESULT only
in FINAL; LEN not in NOP or FINAL; PHASE not in NOP or BLOCK; H not in NOP; ERR and ECODE are cleared by INIT only and set only
from ERR = 0, and then nothing else changes. -/
def Obligations.CommandsChangeOnlyTheirRegisters : Prop :=
  ∀ (i : Instr) (s t : State), exec i s = .next t →
    t = { s with arch := t.arch } ∧
    ((∀ x, i ≠ .final x) → t.arch.result = s.arch.result) ∧
    ((∃ x, i = .nop x ∨ i = .final x) → t.arch.len = s.arch.len) ∧
    ((∃ x, i = .nop x ∨ i = .block x) → t.arch.phase = s.arch.phase) ∧
    ((∃ x, i = .nop x) → t.arch.h = s.arch.h) ∧
    ((∀ seed, i ≠ .init seed) → (t.arch.err = s.arch.err ∧ t.arch.ecode = s.arch.ecode) ∨
      (s.arch.err = false ∧ t.arch = { s.arch with err := true, ecode := 4 }))

/-- R80: for every input, every seed and every state (whatever ERR is, so with ERR = 0 too), the commands of `HASH seed, d`, applied
one after the other, raise no error and leave the hash of the reference function in RESULT and H, LEN = L mod 2^32, PHASE = DONE,
ERR = 0 and ECODE = 0. The commands are those of 30_encoding.md R49. -/
def Obligations.HashCommandsComputeMurmur3 : Prop :=
  ∀ (d : List Byte) (seed : Word) (s : State),
    retireAll ((asmHash seed d).map encode) s =
      { s with arch :=
        { h := murmur3 d seed, len := BitVec.ofNat 32 d.length, phase := .done, result := murmur3 d seed,
          err := false, ecode := 0 } } ∧
    (∀ n : Nat, 0 < n → n ≤ (asmHash seed d).length →
      (retireAll (((asmHash seed d).map encode).take n) s).arch.err = false)

/-- Derived from 70_reset_and_hazards.md R100, R102, R104, R107, 30_encoding.md R39 and 41_commands.md R80, R81: a hash job through the ports. From any settled state with nothing offered, the host offers each command of
`HASH seed, d`, the block accepts it and retires it, and reads STATUS and RESULT: STATUS shows DONE without error, RESULT the hash of
the reference function, and that is the job's observation. Over any run at all, from any state and in any order of steps, an
observation is of a job (the commands from one INIT to the next FINAL; that an INIT in between begins a job of its own is the model's
choice, log 22), its value is what those commands leave in RESULT from any state, so for the commands of `HASH seed, d` it is the hash
of the reference function. The third clause is the model's choice (log 22) where it goes beyond R107: just after a step that accepts a
command, or is a reset or a loss of power, the watch holds no observation, one already read included; R107 rules out a command between
the FINAL and the reads, says nothing of a job with a reset, and takes back no observation. -/
def Obligations.HashJobThroughThePorts : Prop :=
  (∀ (d : List Byte) (seed : Word) (s : State) (es : List Event), s.Settled → s.offered = none →
    s.schedule = (asmHash seed d).flatMap (fun i => [.offer (encode i), .edge, .retire]) ++ .read 1 :: .read 0 :: es →
    ∃ t u v, runSteps (3 * (asmHash seed d).length) s = .next t ∧
      step t = .next u ∧ u.rdData = 0x00000003 ∧ step u = .next v ∧ v.rdData = murmur3 d seed ∧ v.schedule = es ∧
      hashJobObservation (3 * (asmHash seed d).length + 2) s = some ((asmHash seed d).map encode, murmur3 d seed)) ∧
  (∀ (n : Nat) (s : State) (cmds : List Beat) (v : Word), hashJobObservation n s = some (cmds, v) →
    isHashJob cmds = true ∧ (∀ s' : State, (retireAll cmds s').arch.result = v) ∧
    (∀ (d : List Byte) (seed : Word), cmds = (asmHash seed d).map encode → v = murmur3 d seed)) ∧
  (∀ (n : Nat) (s t : State), runSteps n s = .next t →
    (∃ b, acceptedBy t = some b) ∨ t.schedule.head? = some .assertReset ∨ t.schedule.head? = some .powerLoss →
    hashJobObservation (n + 1) s = none)

/-- Derived from R81 and 10_state.md R15: what INIT leaves does not depend on the hash in progress, only on the seed and on
RESULT, which INIT keeps. -/
def Obligations.InitForgetsTheOldHash : Prop :=
  ∀ (seed : Word) (s s' t t' : State), s.arch.result = s'.arch.result →
    exec (.init seed) s = .next t → exec (.init seed) s' = .next t' → t.arch = t'.arch ∧ t.arch.result = s.arch.result

/-! ### Errors (60_exceptions.md) -/

/-- R84: a command in error sets ERR and ECODE, to a code in 1..4, and changes nothing else of the state; the action is taken
only from ERR = 0. -/
def Obligations.ErrorActionChangesOnlyErrAndEcode : Prop :=
  (∀ (e : CmdError) (a : Arch), raiseCmdError e a = { a with err := true, ecode := errorCode e } ∧
    1 ≤ (errorCode e).toNat ∧ (errorCode e).toNat ≤ 4) ∧
  (∀ (b : Beat) (s t : State), s.arch.err = false → execBeat b s = .next t → t.arch.err = true →
    ∃ e : CmdError, t = { s with arch := { s.arch with err := true, ecode := errorCode e } }) ∧
  (∀ (b : Beat) (s t : State), s.arch.err = true → execBeat b s = .next t → t.arch.err = true → t = s)

/-- R85: while ERR = 1 every beat is dropped but an INIT whose control byte is exactly 0x01; with ERR = 0 a legal command in a
legal phase is performed. -/
def Obligations.StickyErrorDropsAllButInit : Prop :=
  (∀ (b : Beat) (s : State), s.arch.err = true →
    (b.ctl ≠ 0x01 → execBeat b s = .next s) ∧
    (b.ctl = 0x01 → execBeat b s = .next { s with arch :=
      { h := b.data, len := 0, phase := .absorb, result := s.arch.result, err := false, ecode := 0 } })) ∧
  (∀ s : State, s.arch.err = false →
    (∀ x, exec (.nop x) s = .next s) ∧
    (∀ seed, exec (.init seed) s = .next (s.mapArch (initEffect seed))) ∧
    (s.arch.phase = .absorb → ∀ k, exec (.block k) s = .next (s.mapArch (blockEffect k))) ∧
    (s.arch.phase = .absorb → ∀ n t, exec (.tail n t) s = .next (s.mapArch (tailEffect n t))) ∧
    (s.arch.phase = .absorb ∨ s.arch.phase = .tailed → ∀ x, exec (.final x) s = .next (s.mapArch finalEffect)))

/-- R89: one command reports at most one error, the first in the order ILLEGAL_OP, RESERVED_FIELD, TAIL_ZERO, SEQUENCE; a later
command in error does not change ECODE; the rule's three examples. -/
def Obligations.FirstErrorInPriorityOrder : Prop :=
  (∀ (b : Beat) (s t : State), s.arch.err = false → execBeat b s = .next t → t.arch.err = true →
    t.arch.ecode =
      if b.ctl.toNat % 8 ≥ 5 then 1
      else if b.ctl.toNat / 32 ≠ 0 ∨ (b.ctl.toNat % 8 ≠ 3 ∧ b.ctl.toNat / 8 % 4 ≠ 0) then 2
      else if b.ctl.toNat % 8 = 3 ∧ b.ctl.toNat / 8 % 4 = 0 then 3
      else 4) ∧
  (∀ (b : Beat) (s t : State), s.arch.err = true → execBeat b s = .next t → t.arch.err = true →
    t.arch.ecode = s.arch.ecode) ∧
  (∀ (x : Word) (s : State), s.arch.err = false →
    execBeat ⟨0xe5, x⟩ s = .next { s with arch := { s.arch with err := true, ecode := 1 } } ∧
    execBeat ⟨0x23, x⟩ s = .next { s with arch := { s.arch with err := true, ecode := 2 } } ∧
    (s.arch.phase = .idle → execBeat ⟨0x0a, x⟩ s = .next { s with arch := { s.arch with err := true, ecode := 2 } }))

/-- R83: an error never stops the block nor its command port, and errors are precise: the commands before the one in error have
their effect, it and every command after it other than a legal INIT have none, and ECODE keeps its code. -/
def Obligations.ErrorsArePrecise : Prop :=
  (∀ (b : Beat) (s : State), ∃ t, execBeat b s = .next t) ∧
  (∀ (b : Beat) (s : State), s.rstN = true → s.offered = some b → s.arch.err = true →
    acceptStep s = .next { s with pending := s.pending ++ [b], offered := none }) ∧
  (∀ (before rest : List Beat) (b : Beat) (e : CmdError) (s t : State), t = retireAll before s → t.arch.err = false →
    execBeat b t = .next (t.mapArch (raiseCmdError e)) → (∀ c ∈ rest, c.ctl ≠ 0x01) →
    retireAll (before ++ b :: rest) s = { t with arch := { t.arch with err := true, ecode := errorCode e } })

/-- Derived from R91: the error state is left only by a legal INIT or by reset (a loss of power aside), and an error does not nest: while
ERR = 1 stays, ECODE stays. -/
def Obligations.ErrorStateLeftOnlyByInitOrReset : Prop :=
  ∀ s t : State, s.live = true → s.arch.err = true → step s = .next t → t.live = true →
    (t.arch.err = true → t.arch.ecode = s.arch.ecode) ∧
    (t.arch.err = false →
      s.schedule.head? = some .assertReset ∨
      (∃ seed rest, s.pending = ⟨0x01, seed⟩ :: rest ∧ (s.schedule = [] ∨ s.schedule.head? = some .retire) ∧
        t.arch.h = seed ∧ t.arch.phase = .absorb ∧ t.arch.ecode = 0))

/-! ### The registers over a step (10_state.md) -/

/-- R15: RESULT is written only by FINAL and by reset (a loss of power aside); it reads through select 0; it is 0 at reset. -/
def Obligations.ResultWrittenOnlyByFinalAndReset : Prop :=
  (∀ s t : State, s.live = true → step s = .next t → t.live = true → t.arch.result ≠ s.arch.result →
    s.schedule.head? = some .assertReset ∨
    (∃ x rest, s.pending = ⟨0x04, x⟩ :: rest ∧ (s.schedule = [] ∨ s.schedule.head? = some .retire) ∧
      t.arch.result = fmix (s.arch.h ^^^ s.arch.len) ∧ t.arch.phase = .done)) ∧
  (∀ a : Arch, settledValue a 0 = a.result) ∧ Arch.reset.result = 0x00000000

/-- Derived from R14: PHASE's values, and its moves over a step: to ABSORB by INIT, from ABSORB to TAILED by TAIL, from ABSORB or TAILED to
DONE by FINAL, to IDLE by reset only (a loss of power aside). -/
def Obligations.PhaseMovesInTheSourceOrder : Prop :=
  phaseBits .idle = 0 ∧ phaseBits .absorb = 1 ∧ phaseBits .tailed = 2 ∧ phaseBits .done = 3 ∧ Arch.reset.phase = .idle ∧
  (∀ (busyBit : Bool) (a : Arch), (statusWord busyBit a).extractLsb' 0 2 = phaseBits a.phase) ∧
  (∀ s t : State, s.live = true → step s = .next t → t.live = true → t.arch.phase ≠ s.arch.phase →
    (t.arch.phase = .idle → s.schedule.head? = some .assertReset) ∧
    (t.arch.phase = .absorb → ∃ seed rest, s.pending = ⟨0x01, seed⟩ :: rest) ∧
    (t.arch.phase = .tailed → s.arch.phase = .absorb ∧
      ∃ t0 rest, s.pending = ⟨0x0b, t0⟩ :: rest ∨ s.pending = ⟨0x13, t0⟩ :: rest ∨ s.pending = ⟨0x1b, t0⟩ :: rest) ∧
    (t.arch.phase = .done → (s.arch.phase = .absorb ∨ s.arch.phase = .tailed) ∧
      ∃ x rest, s.pending = ⟨0x04, x⟩ :: rest))

/-- R25: the registers at reset, the observed BUSY and the commands in flight. -/
def Obligations.ResetValuesOfEveryElement : Prop :=
  State.reset.arch.h = 0x00000000 ∧ State.reset.arch.len = 0x00000000 ∧ phaseBits State.reset.arch.phase = 0 ∧
  State.reset.arch.phase = .idle ∧ State.reset.arch.result = 0x00000000 ∧ State.reset.arch.err = false ∧
  State.reset.arch.ecode = 0 ∧ busy State.reset = false ∧ State.reset.pending = [] ∧
  (∀ s t : State, resetStep s = .next t → t.arch = State.reset.arch ∧ t.pending = [] ∧ busy t = false)

/-- Derived from R16 to R18, R14, R70 to R72 and R98: the invariant holds at reset. -/
def Obligations.InvariantHoldsAtReset : Prop := State.reset.Inv

/-- Derived from R16 to R18, R14, R70 to R72 and R98: every step keeps the invariant. ERR = 1 exactly when ECODE is not 0, ECODE is
one of R86's codes, IDLE holds the reset values, LEN is a multiple of 4 in ABSORB and not in TAILED, RESULT is H in DONE, and
while `rst_n` = 0 the registers are at reset with nothing pending. -/
def Obligations.StepKeepsTheInvariant : Prop :=
  ∀ s t : State, s.Inv → step s = .next t → t.Inv

/-! ### The read port (41_commands.md R73 to R76, 70_reset_and_hazards.md R103 to R105) -/

/-- 20_memory.md R34: the select map, every value of `rd_sel`; a settled read answers the selected register. -/
def Obligations.ReadSelectMap : Prop :=
  ∀ (sel : BitVec 2) (s : State), s.rstN = true → s.pending = [] →
    (sel = 0 → readStep sel s = .next { s with rdSel := 0, rdData := s.arch.result }) ∧
    (sel = 1 → readStep sel s = .next { s with rdSel := 1, rdData := statusWord (busy s) s.arch }) ∧
    (sel = 2 → readStep sel s = .next { s with rdSel := 2, rdData := s.arch.h }) ∧
    (sel = 3 → readStep sel s = .next { s with rdSel := 3, rdData := s.arch.len }) ∧
    (sel = 0 ∨ sel = 1 ∨ sel = 2 ∨ sel = 3)

/-- Derived from R74, and from 70_reset_and_hazards.md R99 as log 5 reads it (a read during reset is a free value whole, its BUSY bit
too): out of reset a read of STATUS is `zext_32({BUSY, ECODE, ERR, PHASE})` when settled, and its BUSY bit is exact settled or not; it
clears nothing; the layout of 10_state.md R16 and the example. -/
def Obligations.StatusReadIsTheFields : Prop :=
  (∀ s : State, s.rstN = true → ∃ t, readStep 1 s = .next t ∧ t.arch = s.arch ∧ t.pending = s.pending ∧
    t.rdData.getLsbD 6 = busy s ∧
    (s.pending = [] → t.rdData =
      (0#1 ++ s.arch.ecode ++ BitVec.ofBool s.arch.err ++ phaseBits s.arch.phase).setWidth 32)) ∧
  (∀ (busyBit : Bool) (a : Arch),
    (statusWord busyBit a).extractLsb' 0 2 = phaseBits a.phase ∧ (statusWord busyBit a).getLsbD 2 = a.err ∧
    (statusWord busyBit a).extractLsb' 3 3 = a.ecode ∧ (statusWord busyBit a).getLsbD 6 = busyBit ∧
    (∀ i : Nat, 7 ≤ i → (statusWord busyBit a).getLsbD i = false)) ∧
  (∀ s : State, s.rstN = true → s.pending = [] → s.arch.phase = .tailed → s.arch.err = true → s.arch.ecode = 4 →
    readStep 1 s = .next { s with rdSel := 1, rdData := 0x00000026 })

/-- Derived from R104: a settled read answers the register; an unsettled one answers some word, with bit 6 set for STATUS; a read changes neither
`arch` nor `pending`. -/
def Obligations.UnsettledReadAnswersAnyWord : Prop :=
  ∀ (sel : BitVec 2) (s : State), s.rstN = true →
    (s.pending = [] → readStep sel s = .next { s with rdSel := sel, rdData := settledValue s.arch sel }) ∧
    (s.pending ≠ [] → ∃ (junk : Word) (n : Nat), readStep sel s = .next
      { s with rdSel := sel, rdData := if sel = 1 then junk ||| 0x00000040 else junk, draws := n })

/-- Derived from R32: reads have no side effects (the last answer and the model's draw counter aside) and a settled read answers the same when
made again; commands are not idempotent. -/
def Obligations.ReadsHaveNoSideEffect : Prop :=
  (∀ (sel : BitVec 2) (s : State), ∃ t, readStep sel s = .next t ∧
    t = { s with rdSel := sel, rdData := t.rdData, draws := t.draws } ∧
    (s.rstN = true → s.pending = [] → readStep sel t = .next t)) ∧
  (∀ (k : Word) (s : State), s.arch.err = false → s.arch.phase = .absorb →
    ∃ t u, exec (.block k) s = .next t ∧ exec (.block k) t = .next u ∧
      u.arch.h = hmix (hmix s.arch.h k) k ∧ u.arch.len = s.arch.len + 8)

/-- R105: after a read of STATUS that shows BUSY = 0, every read until the next Accept step (and without a reset or a loss of
power) answers the registers as they are now, over any number of events between them. -/
def Obligations.SettledReadsAreStable : Prop :=
  (∀ s t : State, s.rstN = true → readStep 1 s = .next t → t.rdData.getLsbD 6 = false → s.pending = []) ∧
  (∀ (es rest : List Event) (s t : State), s.Settled → s.schedule = es ++ rest → (∀ e ∈ es, e.isQuiet = true) →
    runSteps es.length s = .next t →
    t.Settled ∧ t.arch = s.arch ∧ t.schedule = rest ∧
      ∀ sel, readStep sel t = .next (t.showRead sel (settledValue s.arch sel))) ∧
  (∀ (es rest : List Event) (s : State), s.Settled → s.schedule = es ++ rest → (∀ e ∈ es, e.isRead = true) →
    ∃ t, runSteps es.length s = .next t)

/-! ### The steps (70_reset_and_hazards.md, 30_encoding.md R39) -/

/-- R98: Reset is one step from every state, before a first reset too; the pending commands are discarded with no effect; while
`rst_n` = 0 no command is accepted. -/
def Obligations.ResetStepSetsEveryElement : Prop :=
  (∀ (s : State) (es : List Event), s.schedule = .assertReset :: es →
    ∃ t, step s = .next t ∧
      t.arch = { h := 0, len := 0, phase := .idle, result := 0, err := false, ecode := 0 } ∧
      t.pending = [] ∧ t.rstN = false ∧ t.live = true ∧ t.schedule = es) ∧
  (∀ s : State, s.rstN = false → acceptStep s = .next s)

/-- Derived from R99: a read during reset answers some word and changes no register; the first read after the reset is settled and answers 0
for every select. -/
def Obligations.ReadsDuringAndAfterReset : Prop :=
  (∀ (sel : BitVec 2) (s : State), s.rstN = false → ∃ (junk : Word) (n : Nat),
    readStep sel s = .next { s with rdSel := sel, rdData := junk, draws := n }) ∧
  (∀ (sel : BitVec 2) (s : State) (es : List Event), s.schedule = .assertReset :: .releaseReset :: .read sel :: es →
    ∃ t, runSteps 3 s = .next t ∧ t.Settled ∧ t.rdSel = sel ∧ t.rdData = 0x00000000 ∧ t.arch = Arch.reset ∧ t.schedule = es)

/-- R100: the Accept step, enabled when `rst_n` = 1 and a command is offered, puts it at the end of the pending commands and
changes no register; so does a step whose next event is a ready edge. -/
def Obligations.AcceptAppendsTheOffer : Prop :=
  (∀ (b : Beat) (s : State), s.rstN = true → s.offered = some b →
    acceptStep s = .next { s with pending := s.pending ++ [b], offered := none }) ∧
  (∀ (b : Beat) (es : List Event) (s : State), s.live = true → s.rstN = true → s.offered = some b →
    s.schedule = .edge :: es →
    step s = .next { s with pending := s.pending ++ [b], offered := none, schedule := es })

/-- Derived from 30_encoding.md R39 and 93_implementation_defined.md U10: an offer stands until it is accepted or the host withdraws
it. Held stable it goes on standing; changed, the step is refused by name (the model's form of holding an offer, log 7). The host may
take it back (log 8). A retirement, a read, a reset, its release and a loss of power leave it (log 20, log 11), and so does an edge
during reset; with nothing offered or during reset an edge accepts nothing (log 9). Over a whole step an offer goes only by being
accepted or withdrawn. -/
def Obligations.OffersStandUntilAcceptedOrWithdrawn : Prop :=
  (∀ (b b' : Beat) (s : State),
    (s.offered = none → offerStep b s = .next { s with offered := some b }) ∧
    (s.offered = some b → offerStep b s = .next s) ∧
    (s.offered = some b' → b' ≠ b → offerStep b s = .refused .unstableOffer) ∧
    (s.rstN = false → s.offered = some b → ∃ t, acceptStep s = .next t ∧ t.offered = some b) ∧
    (s.rstN = false ∨ s.offered = none → acceptStep s = .next s)) ∧
  (∀ s t : State,
    withdrawStep s = .next { s with offered := none } ∧
    (retireStep s = .next t → t.offered = s.offered) ∧
    (∀ sel, readStep sel s = .next t → t.offered = s.offered) ∧
    (resetStep s = .next t → t.offered = s.offered) ∧
    (releaseStep s = .next t → t.offered = s.offered) ∧
    (powerLossStep s = .next t → t.offered = s.offered)) ∧
  (∀ (b : Beat) (s t : State), s.offered = some b → step s = .next t →
    t.offered = some b ∨ s.schedule.head? = some .withdraw ∨ acceptedBy s = some b)

/-- R102: the Retire step applies the oldest pending command, whole and alone. Over a step (a loss of power aside) the pending commands
lose their first and the registers take its effect, or the registers and the pending commands are reset, or the registers stay and at
most one command joins the pending ones at their end: so every register changes by a retirement or a reset only. -/
def Obligations.RetireIsOneAtATimeInOrder : Prop :=
  (∀ (b : Beat) (rest : List Beat) (s : State), s.pending = b :: rest →
    retireStep s = execBeat b { s with pending := rest } ∧
    ∃ a : Arch, retireStep s = .next { s with arch := a, pending := rest }) ∧
  (∀ s t : State, s.live = true → step s = .next t → t.live = true →
    ((t.pending = s.pending ∧ t.arch = s.arch) ∨ (∃ b, t.pending = s.pending ++ [b] ∧ t.arch = s.arch) ∨
      (∃ b, s.pending = b :: t.pending ∧ execBeat b s = .next { s with arch := t.arch }) ∨
      (s.schedule.head? = some .assertReset ∧ t.pending = [] ∧ t.arch = Arch.reset)))

/-- Derived from R102, 41_commands.md R67: a step whose next pending beat decodes runs exactly that command, on the state without
the beat (and without the used schedule entry), where its retirement is scheduled; where nothing is scheduled, a step retires by the
model's choice of log 2 (R102 fixes no such order) and runs it too; and from a table word, placed by the model's withFetchWord
(log 3), the next step runs the command it decodes to. -/
def Obligations.StepRunsTheDecodedCommand : Prop :=
  (∀ (b : Beat) (i : Instr) (rest : List Beat) (es : List Event) (s : State), s.live = true → s.pending = b :: rest →
    decode b = .ok i → s.schedule = .retire :: es → step s = exec i { s with pending := rest, schedule := es }) ∧
  (∀ (b : Beat) (i : Instr) (rest : List Beat) (s : State), s.live = true → s.pending = b :: rest →
    decode b = .ok i → s.schedule = [] → step s = exec i { s with pending := rest }) ∧
  (∀ (nbits w : Nat) (i : Instr) (s : State), decodeTableWord nbits w = some i →
    step (s.withFetchWord nbits w) = exec i { s with rstN := true, live := true })

/-- Derived from R103, and from R99 as log 5 reads it: BUSY is 1 exactly when `pending` is not empty, and out of reset a read of
STATUS shows it exactly. -/
def Obligations.BusyIsExact : Prop :=
  ∀ s : State, (busy s = true ↔ s.pending ≠ []) ∧
    (s.rstN = true → ∃ t, readStep 1 s = .next t ∧ (t.rdData.getLsbD 6 = true ↔ s.pending ≠ []))

/-- Derived from R104 and R99 (the free values of log 4 and log 5, this model's form of the draw): the word an unsettled read or a
read during reset answers is the next free value, used once, and it holds for every value of it. -/
def Obligations.UnsettledReadsUseFreshFreeValues : Prop :=
  ∀ (sel : BitVec 2) (s : State), s.rstN = false ∨ s.pending ≠ [] → ∃ t, readStep sel s = .next t ∧ t.draws = s.draws + 1 ∧
    (s.rstN = false → t.rdData = Config.draw s.draws) ∧
    (s.rstN = true → sel ≠ 1 → t.rdData = Config.draw s.draws) ∧
    (s.rstN = true → sel = 1 → t.rdData = Config.draw s.draws ||| 0x00000040)

/-- Derived from 20_memory.md R35 and 10_state.md R23: when a step retires a command, reads, or drives a port, the registers as
they will be once all pending commands have retired stay the same; when it accepts a command, they become those with that one
command applied after all before it; so the moment of retirement cannot be seen in them. With nothing pending they are the
registers. -/
def Obligations.RetirementMomentIsInvisible : Prop :=
  (∀ s t : State, s.live = true → step s = .next t →
    settledArch t = settledArch s ∨
    (∃ b, s.rstN = true ∧ s.offered = some b ∧ t.pending = s.pending ++ [b] ∧
      execBeat b { s with arch := settledArch s } = .next { s with arch := settledArch t }) ∨
    (s.schedule.head? = some .assertReset ∧ settledArch t = Arch.reset) ∨
    (s.schedule.head? = some .powerLoss ∧ t.live = false)) ∧
  (∀ s : State, s.pending = [] → settledArch s = s.arch)

/-- Derived from R108 and R102: with nothing scheduled (the model's default, log 2) every pending command retires, one a step, and
the registers end as if they had been applied one after the other. -/
def Obligations.EveryPendingCommandRetires : Prop :=
  ∀ s : State, s.live = true → s.schedule = [] →
    runSteps s.pending.length s = .next { s with arch := settledArch s, pending := [] }

/-- Derived from 60_exceptions.md R97, 70_reset_and_hazards.md R101 and 93_implementation_defined.md U4, in the model's form of a loss
of power (an event that is a step in every state, log 11): after a loss of power every step but a Reset or a further loss of power is
refused by name, and one reset makes the block ready from any state: the registers at reset, nothing pending. -/
def Obligations.OneResetAfterPowerUp : Prop :=
  (∀ s : State, s.live = false → s.schedule.head? ≠ some .assertReset → s.schedule.head? ≠ some .powerLoss →
    step s = .refused .noResetSincePowerUp) ∧
  (∀ (s : State) (es : List Event), s.schedule = .powerLoss :: .assertReset :: .releaseReset :: es →
    ∃ t, runSteps 3 s = .next t ∧ t.Settled ∧ t.arch = Arch.reset ∧ t.schedule = es) ∧
  (∀ (s : State) (es : List Event), s.schedule = .powerLoss :: es → ∃ t, step s = .next t ∧ t.live = false)
end

