-- ==== Sys2Proof/Laws/Datapath.lean ====
section
/-! SUPPORT. The datapath units as bit-vector arithmetic, for later proofs to rewrite with instead of unfolding them. -/

namespace Sys2Proof.Machine

theorem mac_eq (a b c : Word) : mac a b c = a * b + c := by
  apply BitVec.eq_of_toNat_eq
  simp [mac, BitVec.toNat_add, BitVec.toNat_mul, Nat.add_comm, Nat.mul_comm]

theorem mac_zero_addend (a b : Word) : mac a b 0 = a * b := by simp [mac_eq]

theorem xorMix_eq (a b : Word) : xorMix a b = a ^^^ b := rfl

theorem xorshift_eq (x : Word) (s : Nat) : xorshift x s = x ^^^ (x >>> s) := rfl

theorem kmix_eq (k : Word) : kmix k = rotl (k * 0xcc9e2d51) 15 * 0x1b873593 := by
  simp only [kmix, mac_zero_addend]; rfl

theorem hmix_eq (h k : Word) : hmix h k = rotl (h ^^^ kmix k) 13 * 5 + 0xe6546b64 := by
  simp only [hmix, mac_eq]; rfl

theorem finalMix_eq (h len : Word) : finalMix h len = fmix (h ^^^ len) := rfl

theorem kmix_zero : kmix 0 = 0 := by decide

end Sys2Proof.Machine
end

