-- ==== Sys2Proof/Laws/Decode.lean ====
section
/-! SUPPORT. The control byte's fields, and what the decoder can answer. -/

namespace Sys2Proof

theorem ctlOp_mkCtl (n : BitVec 2) (op : BitVec 3) : ctlOp (mkCtl n op) = op := by
  revert n op; decide

theorem ctlN_mkCtl (n : BitVec 2) (op : BitVec 3) : ctlN (mkCtl n op) = n := by
  revert n op; decide

theorem ctlRsv_mkCtl (n : BitVec 2) (op : BitVec 3) : ctlRsv (mkCtl n op) = 0 := by
  revert n op; decide

/-- A control byte is its three fields. -/
theorem ctl_eq_of_rsv_zero (ctl : Byte) (h : ctlRsv ctl = 0) : ctl = mkCtl (ctlN ctl) (ctlOp ctl) := by
  revert ctl; decide

/-- The legal control bytes (30_encoding.md R42), as `decodeCheck` finds them. -/
theorem decodeCheck_eq_none_iff (ctl : Byte) :
    decodeCheck ctl = none ↔
      ctl = 0x00 ∨ ctl = 0x01 ∨ ctl = 0x02 ∨ ctl = 0x0b ∨ ctl = 0x13 ∨ ctl = 0x1b ∨ ctl = 0x04 := by
  revert ctl; decide

/-- The decode check never answers SEQUENCE (R87). -/
theorem decodeCheck_ne_sequence (ctl : Byte) : decodeCheck ctl ≠ some .sequence := by
  revert ctl; decide

theorem decode_error_iff (b : Beat) (e : CmdError) : decode b = .error e ↔ decodeCheck b.ctl = some e := by
  unfold decode; split <;> simp [*]

theorem decode_ok_iff (b : Beat) (i : Instr) : decode b = .ok i ↔ decodeCheck b.ctl = none ∧ selectInstr b = i := by
  unfold decode; split <;> simp [*]

/-- What a legal beat decodes to, by its control byte. -/
theorem decode_ok_cases {b : Beat} {i : Instr} (h : decode b = .ok i) :
    (b.ctl = 0x00 ∧ i = .nop b.data) ∨ (b.ctl = 0x01 ∧ i = .init b.data) ∨ (b.ctl = 0x02 ∧ i = .block b.data) ∨
    (b.ctl = 0x0b ∧ i = .tail 1 b.data) ∨ (b.ctl = 0x13 ∧ i = .tail 2 b.data) ∨ (b.ctl = 0x1b ∧ i = .tail 3 b.data) ∨
    (b.ctl = 0x04 ∧ i = .final b.data) := by
  obtain ⟨hc, rfl⟩ := (decode_ok_iff b i).1 h
  obtain ⟨ctl, data⟩ := b
  rcases (decodeCheck_eq_none_iff ctl).1 hc with h | h | h | h | h | h | h <;> subst h <;>
    simp [selectInstr, ctlOp, ctlN]

/-- What each legal control byte decodes to, whatever the data word (30_encoding.md R42). -/
theorem decode_legal (x : Word) :
    decode ⟨0x00, x⟩ = .ok (.nop x) ∧ decode ⟨0x01, x⟩ = .ok (.init x) ∧ decode ⟨0x02, x⟩ = .ok (.block x) ∧
    decode ⟨0x0b, x⟩ = .ok (.tail 1 x) ∧ decode ⟨0x13, x⟩ = .ok (.tail 2 x) ∧ decode ⟨0x1b, x⟩ = .ok (.tail 3 x) ∧
    decode ⟨0x04, x⟩ = .ok (.final x) := by
  refine ⟨?_, ?_, ?_, ?_, ?_, ?_, ?_⟩ <;>
    exact (decode_ok_iff _ _).2 ⟨(decodeCheck_eq_none_iff _).2 (by simp), by simp [selectInstr, ctlOp, ctlN]⟩

/-- Two beats with one control byte fail the decode check together: the data word is never checked (R87). -/
theorem decode_error_congr {ctl : Byte} {x y : Word} {e : CmdError} (h : decode ⟨ctl, x⟩ = .error e) :
    decode ⟨ctl, y⟩ = .error e :=
  (decode_error_iff ⟨ctl, y⟩ e).2 ((decode_error_iff ⟨ctl, x⟩ e).1 h)

end Sys2Proof
end

