-- ==== Sys2Proof/Laws/State.lean ====
section
/-! SUPPORT. One lemma per field per update of the state, true by rfl, so that no later proof unfolds a record update. -/

namespace Sys2Proof.Machine

variable (s : State) (f : Arch → Arch) (sel : BitVec 2) (v : Word) (n : Nat) (b : Beat)

@[simp] theorem State.mapArch_arch : (s.mapArch f).arch = f s.arch := rfl
@[simp] theorem State.mapArch_pending : (s.mapArch f).pending = s.pending := rfl
@[simp] theorem State.mapArch_offered : (s.mapArch f).offered = s.offered := rfl
@[simp] theorem State.mapArch_rstN : (s.mapArch f).rstN = s.rstN := rfl
@[simp] theorem State.mapArch_rdSel : (s.mapArch f).rdSel = s.rdSel := rfl
@[simp] theorem State.mapArch_rdData : (s.mapArch f).rdData = s.rdData := rfl
@[simp] theorem State.mapArch_live : (s.mapArch f).live = s.live := rfl
@[simp] theorem State.mapArch_draws : (s.mapArch f).draws = s.draws := rfl
@[simp] theorem State.mapArch_schedule : (s.mapArch f).schedule = s.schedule := rfl

@[simp] theorem State.showRead_arch : (s.showRead sel v).arch = s.arch := rfl
@[simp] theorem State.showRead_pending : (s.showRead sel v).pending = s.pending := rfl
@[simp] theorem State.showRead_offered : (s.showRead sel v).offered = s.offered := rfl
@[simp] theorem State.showRead_rstN : (s.showRead sel v).rstN = s.rstN := rfl
@[simp] theorem State.showRead_rdSel : (s.showRead sel v).rdSel = sel := rfl
@[simp] theorem State.showRead_rdData : (s.showRead sel v).rdData = v := rfl
@[simp] theorem State.showRead_live : (s.showRead sel v).live = s.live := rfl
@[simp] theorem State.showRead_draws : (s.showRead sel v).draws = s.draws := rfl
@[simp] theorem State.showRead_schedule : (s.showRead sel v).schedule = s.schedule := rfl

@[simp] theorem State.drawn_arch : (s.drawn n).arch = s.arch := rfl
@[simp] theorem State.drawn_pending : (s.drawn n).pending = s.pending := rfl
@[simp] theorem State.drawn_offered : (s.drawn n).offered = s.offered := rfl
@[simp] theorem State.drawn_rstN : (s.drawn n).rstN = s.rstN := rfl
@[simp] theorem State.drawn_rdSel : (s.drawn n).rdSel = s.rdSel := rfl
@[simp] theorem State.drawn_rdData : (s.drawn n).rdData = s.rdData := rfl
@[simp] theorem State.drawn_live : (s.drawn n).live = s.live := rfl
@[simp] theorem State.drawn_draws : (s.drawn n).draws = s.draws + n := rfl
@[simp] theorem State.drawn_schedule : (s.drawn n).schedule = s.schedule := rfl

@[simp] theorem State.withNextCommand_arch : (s.withNextCommand b).arch = s.arch := rfl
@[simp] theorem State.withNextCommand_pending : (s.withNextCommand b).pending = b :: s.pending := rfl
@[simp] theorem State.withNextCommand_offered : (s.withNextCommand b).offered = s.offered := rfl
@[simp] theorem State.withNextCommand_rstN : (s.withNextCommand b).rstN = true := rfl
@[simp] theorem State.withNextCommand_rdSel : (s.withNextCommand b).rdSel = s.rdSel := rfl
@[simp] theorem State.withNextCommand_rdData : (s.withNextCommand b).rdData = s.rdData := rfl
@[simp] theorem State.withNextCommand_live : (s.withNextCommand b).live = true := rfl
@[simp] theorem State.withNextCommand_draws : (s.withNextCommand b).draws = s.draws := rfl
@[simp] theorem State.withNextCommand_schedule : (s.withNextCommand b).schedule = .retire :: s.schedule := rfl

variable (a : Arch) (e : CmdError) (seed k t : Word) (m : BitVec 2)

@[simp] theorem raiseCmdError_h : (raiseCmdError e a).h = a.h := rfl
@[simp] theorem raiseCmdError_len : (raiseCmdError e a).len = a.len := rfl
@[simp] theorem raiseCmdError_phase : (raiseCmdError e a).phase = a.phase := rfl
@[simp] theorem raiseCmdError_result : (raiseCmdError e a).result = a.result := rfl
@[simp] theorem raiseCmdError_err : (raiseCmdError e a).err = true := rfl
@[simp] theorem raiseCmdError_ecode : (raiseCmdError e a).ecode = errorCode e := rfl

@[simp] theorem initEffect_h : (initEffect seed a).h = seed := rfl
@[simp] theorem initEffect_len : (initEffect seed a).len = 0 := rfl
@[simp] theorem initEffect_phase : (initEffect seed a).phase = .absorb := rfl
@[simp] theorem initEffect_result : (initEffect seed a).result = a.result := rfl
@[simp] theorem initEffect_err : (initEffect seed a).err = false := rfl
@[simp] theorem initEffect_ecode : (initEffect seed a).ecode = 0 := rfl

@[simp] theorem blockEffect_h : (blockEffect k a).h = hmix a.h k := rfl
@[simp] theorem blockEffect_len : (blockEffect k a).len = a.len + 4 := rfl
@[simp] theorem blockEffect_phase : (blockEffect k a).phase = a.phase := rfl
@[simp] theorem blockEffect_result : (blockEffect k a).result = a.result := rfl
@[simp] theorem blockEffect_err : (blockEffect k a).err = a.err := rfl
@[simp] theorem blockEffect_ecode : (blockEffect k a).ecode = a.ecode := rfl

@[simp] theorem tailEffect_h : (tailEffect m t a).h = xorMix a.h (kmix (tailKey m t)) := rfl
@[simp] theorem tailEffect_len : (tailEffect m t a).len = a.len + m.setWidth 32 := rfl
@[simp] theorem tailEffect_phase : (tailEffect m t a).phase = .tailed := rfl
@[simp] theorem tailEffect_result : (tailEffect m t a).result = a.result := rfl
@[simp] theorem tailEffect_err : (tailEffect m t a).err = a.err := rfl
@[simp] theorem tailEffect_ecode : (tailEffect m t a).ecode = a.ecode := rfl

@[simp] theorem finalEffect_h : (finalEffect a).h = finalMix a.h a.len := rfl
@[simp] theorem finalEffect_len : (finalEffect a).len = a.len := rfl
@[simp] theorem finalEffect_phase : (finalEffect a).phase = .done := rfl
@[simp] theorem finalEffect_result : (finalEffect a).result = finalMix a.h a.len := rfl
@[simp] theorem finalEffect_err : (finalEffect a).err = a.err := rfl
@[simp] theorem finalEffect_ecode : (finalEffect a).ecode = a.ecode := rfl

end Sys2Proof.Machine
end

