-- ==== Sys2Proof/Laws/Ops.lean ====
section
/-! SUPPORT. What each shared operation can do, said once: the sticky drop, the sequence check, the settled value, and the effect
of a command on the registers. -/

namespace Sys2Proof.Machine

variable {f : Arch → Arch} {allowed : Phase → Bool} {a : Arch}

theorem unlessErr_of_err (h : a.err = true) : unlessErr f a = a := by simp [unlessErr, h]

theorem unlessErr_of_no_err (h : a.err = false) : unlessErr f a = f a := by simp [unlessErr, h]

theorem sequenced_of_err (h : a.err = true) : sequenced allowed f a = a := unlessErr_of_err h

theorem sequenced_of_allowed (h : a.err = false) (hp : allowed a.phase = true) : sequenced allowed f a = f a := by
  simp [sequenced, unlessErr, inSequence, h, hp]

theorem sequenced_of_not_allowed (h : a.err = false) (hp : allowed a.phase = false) :
    sequenced allowed f a = raiseCmdError .sequence a := by
  simp [sequenced, unlessErr, inSequence, h, hp]

/-- A command that needs a phase is dropped, or performed in its phase, or in error. -/
theorem sequenced_cases (allowed : Phase → Bool) (f : Arch → Arch) (a : Arch) :
    (a.err = true ∧ sequenced allowed f a = a) ∨
    (a.err = false ∧ allowed a.phase = true ∧ sequenced allowed f a = f a) ∨
    (a.err = false ∧ allowed a.phase = false ∧ sequenced allowed f a = raiseCmdError .sequence a) := by
  cases h : a.err
  · cases hp : allowed a.phase
    · exact .inr (.inr ⟨rfl, rfl, sequenced_of_not_allowed h hp⟩)
    · exact .inr (.inl ⟨rfl, rfl, sequenced_of_allowed h hp⟩)
  · exact .inl ⟨rfl, sequenced_of_err h⟩

@[simp] theorem inAbsorb_iff (p : Phase) : inAbsorb p = true ↔ p = .absorb := by simp [inAbsorb]

@[simp] theorem inAbsorbOrTailed_iff (p : Phase) : inAbsorbOrTailed p = true ↔ p = .absorb ∨ p = .tailed := by
  simp [inAbsorbOrTailed]

@[simp] theorem settledValue_zero (a : Arch) : settledValue a 0#2 = a.result := rfl
@[simp] theorem settledValue_one (a : Arch) : settledValue a 1#2 = statusWord false a := rfl
@[simp] theorem settledValue_two (a : Arch) : settledValue a 2#2 = a.h := rfl
@[simp] theorem settledValue_three (a : Arch) : settledValue a 3#2 = a.len := rfl

@[simp] theorem phaseOfBits_phaseBits (p : Phase) : phaseOfBits (phaseBits p) = p := by cases p <;> rfl

@[simp] theorem errorCode_ne_zero (e : CmdError) : errorCode e ≠ 0#3 := by cases e <;> decide

theorem errorCode_le (e : CmdError) : (errorCode e).toNat ≤ 4 := by cases e <;> decide

theorem errorCode_inj {e e' : CmdError} (h : errorCode e = errorCode e') : e = e' := by
  cases e <;> cases e' <;> first | rfl | (revert h; decide)

end Sys2Proof.Machine
end

