-- ==== Sys2Proof/Laws/Ports.lean ====
section
/-! SUPPORT. What a command, a beat, an event and a step can do, said once. -/

namespace Sys2Proof.Machine

/-- The effect of a decoded command on the registers; `exec_eq` says that it is all a command does. -/
def commandEffect : Instr → Arch → Arch
  | .nop _ => unlessErr id
  | .init seed => initEffect seed
  | .block k => sequenced inAbsorb (blockEffect k)
  | .tail n t => sequenced inAbsorb (tailEffect n t)
  | .final _ => sequenced inAbsorbOrTailed finalEffect

/-- The effect of a beat on the registers; `execBeat_eq` says that it is all a beat does. -/
def beatEffect (b : Beat) : Arch → Arch :=
  match decode b with
  | .ok i => commandEffect i
  | .error e => unlessErr (raiseCmdError e)

theorem exec_eq (i : Instr) (s : State) : exec i s = .next (s.mapArch (commandEffect i)) := by cases i <;> rfl

theorem execBeat_eq (b : Beat) (s : State) : execBeat b s = .next (s.mapArch (beatEffect b)) := by
  unfold execBeat beatEffect
  cases decode b with
  | ok i => exact exec_eq i s
  | error e => rfl

theorem commandEffect_nop (x : Word) (a : Arch) : commandEffect (.nop x) a = a := by simp [commandEffect, unlessErr]

/-- While ERR = 1 a beat changes nothing, or it is a legal INIT (60_exceptions.md R85). -/
theorem beatEffect_of_err {b : Beat} {a : Arch} (h : a.err = true) :
    (b.ctl = 0x01 ∧ beatEffect b a = initEffect b.data a) ∨ (b.ctl ≠ 0x01 ∧ beatEffect b a = a) := by
  unfold beatEffect
  cases hd : decode b with
  | error e =>
    refine .inr ⟨fun hc => ?_, unlessErr_of_err h⟩
    have := (decode_error_iff b e).1 hd
    rw [hc, (decodeCheck_eq_none_iff 0x01).2 (by decide)] at this
    cases this
  | ok i =>
    rcases decode_ok_cases hd with ⟨hc, rfl⟩ | ⟨hc, rfl⟩ | ⟨hc, rfl⟩ | ⟨hc, rfl⟩ | ⟨hc, rfl⟩ | ⟨hc, rfl⟩ | ⟨hc, rfl⟩ <;>
      simp [hc, commandEffect, sequenced, unlessErr, h]

/-- Every way a beat can change the registers (R67): dropped, in error, or performed. -/
theorem beatEffect_cases (b : Beat) (a : Arch) :
    beatEffect b a = a ∨
    (∃ e, a.err = false ∧ beatEffect b a = raiseCmdError e a) ∨
    (b.ctl = 0x01 ∧ beatEffect b a = initEffect b.data a) ∨
    (b.ctl = 0x02 ∧ a.err = false ∧ a.phase = .absorb ∧ beatEffect b a = blockEffect b.data a) ∨
    (∃ n : BitVec 2, n ≠ 0 ∧ a.err = false ∧ a.phase = .absorb ∧ beatEffect b a = tailEffect n b.data a) ∨
    (b.ctl = 0x04 ∧ a.err = false ∧ (a.phase = .absorb ∨ a.phase = .tailed) ∧ beatEffect b a = finalEffect a) := by
  unfold beatEffect
  cases hd : decode b with
  | error e =>
    cases h : a.err
    · exact .inr (.inl ⟨e, rfl, unlessErr_of_no_err h⟩)
    · exact .inl (unlessErr_of_err h)
  | ok i =>
    rcases decode_ok_cases hd with ⟨hc, rfl⟩ | ⟨hc, rfl⟩ | ⟨hc, rfl⟩ | ⟨hc, rfl⟩ | ⟨hc, rfl⟩ | ⟨hc, rfl⟩ | ⟨hc, rfl⟩
    · exact .inl (commandEffect_nop _ a)
    · exact .inr (.inr (.inl ⟨hc, rfl⟩))
    · rcases sequenced_cases inAbsorb (blockEffect b.data) a with ⟨_, h⟩ | ⟨h0, hp, h⟩ | ⟨h0, _, h⟩
      · exact .inl h
      · exact .inr (.inr (.inr (.inl ⟨hc, h0, by simpa using hp, h⟩)))
      · exact .inr (.inl ⟨_, h0, h⟩)
    · rcases sequenced_cases inAbsorb (tailEffect 1 b.data) a with ⟨_, h⟩ | ⟨h0, hp, h⟩ | ⟨h0, _, h⟩
      · exact .inl h
      · exact .inr (.inr (.inr (.inr (.inl ⟨1, by decide, h0, by simpa using hp, h⟩))))
      · exact .inr (.inl ⟨_, h0, h⟩)
    · rcases sequenced_cases inAbsorb (tailEffect 2 b.data) a with ⟨_, h⟩ | ⟨h0, hp, h⟩ | ⟨h0, _, h⟩
      · exact .inl h
      · exact .inr (.inr (.inr (.inr (.inl ⟨2, by decide, h0, by simpa using hp, h⟩))))
      · exact .inr (.inl ⟨_, h0, h⟩)
    · rcases sequenced_cases inAbsorb (tailEffect 3 b.data) a with ⟨_, h⟩ | ⟨h0, hp, h⟩ | ⟨h0, _, h⟩
      · exact .inl h
      · exact .inr (.inr (.inr (.inr (.inl ⟨3, by decide, h0, by simpa using hp, h⟩))))
      · exact .inr (.inl ⟨_, h0, h⟩)
    · rcases sequenced_cases inAbsorbOrTailed finalEffect a with ⟨_, h⟩ | ⟨h0, hp, h⟩ | ⟨h0, _, h⟩
      · exact .inl h
      · exact .inr (.inr (.inr (.inr (.inr ⟨hc, h0, by simpa using hp, h⟩))))
      · exact .inr (.inl ⟨_, h0, h⟩)

/-- A retirement: nothing pending and nothing happens, or the oldest command takes its effect (R102). -/
theorem retireStep_cases (s : State) :
    (s.pending = [] ∧ retireStep s = .next s) ∨
    (∃ b rest, s.pending = b :: rest ∧
      retireStep s = .next { s with arch := beatEffect b s.arch, pending := rest }) := by
  unfold retireStep
  cases h : s.pending with
  | nil => exact .inl ⟨rfl, rfl⟩
  | cons b rest => exact .inr ⟨b, rest, rfl, execBeat_eq b _⟩

/-- An edge: nothing is accepted, or the standing offer joins the pending commands (R100). -/
theorem acceptStep_cases (s : State) :
    acceptStep s = .next s ∨
    (∃ b, s.rstN = true ∧ s.offered = some b ∧
      acceptStep s = .next { s with pending := s.pending ++ [b], offered := none }) := by
  unfold acceptStep
  cases h : s.rstN <;> cases h' : s.offered <;> simp

/-- A read: the registers and the pending commands stay, and the draws may advance (R104). -/
theorem readStep_cases (sel : BitVec 2) (s : State) :
    ∃ v n, readStep sel s = .next { s with rdSel := sel, rdData := v, draws := s.draws + n } := by
  unfold readStep
  split
  · exact ⟨_, 1, rfl⟩
  · split
    · exact ⟨_, 0, rfl⟩
    · exact ⟨_, 1, rfl⟩

/-- A settled read (R73 to R76, R104). -/
theorem readStep_settled {sel : BitVec 2} {s : State} (hr : s.rstN = true) (hp : s.pending = []) :
    readStep sel s = .next (s.showRead sel (settledValue s.arch sel)) := by simp [readStep, hr, hp]

/-- Everything one event can do: nothing but a drive of the port, a read's answer or `rst_n`'s rise (the registers and the
pending commands stay), an acceptance, a retirement, a reset, or a loss of power. -/
theorem liveEvent_next {e : Event} {s t : State} (h : liveEvent e s = .next t) :
    (t.arch = s.arch ∧ t.pending = s.pending ∧ t.live = s.live ∧ t.schedule = s.schedule ∧
      (t.rstN = s.rstN ∨ (e = .releaseReset ∧ t.rstN = true))) ∨
    (∃ b, e = .edge ∧ s.rstN = true ∧ s.offered = some b ∧
      t = { s with pending := s.pending ++ [b], offered := none }) ∨
    (∃ b rest, e = .retire ∧ s.pending = b :: rest ∧ t = { s with arch := beatEffect b s.arch, pending := rest }) ∨
    (e = .assertReset ∧ t = { s with arch := Arch.reset, pending := [], rstN := false, live := true }) ∨
    (e = .powerLoss ∧ t = State.drawn 4
      { s with arch := powerUpArch s.draws, pending := Config.powerUpPending s.draws, live := false }) := by
  cases e with
  | offer b =>
    simp only [liveEvent, offerStep] at h
    split at h
    · cases h; exact .inl ⟨rfl, rfl, rfl, rfl, .inl rfl⟩
    · split at h
      · cases h; exact .inl ⟨rfl, rfl, rfl, rfl, .inl rfl⟩
      · cases h
  | withdraw => cases h; exact .inl ⟨rfl, rfl, rfl, rfl, .inl rfl⟩
  | edge =>
    rcases acceptStep_cases s with h' | ⟨b, hr, ho, h'⟩
    · rw [liveEvent, h'] at h; cases h; exact .inl ⟨rfl, rfl, rfl, rfl, .inl rfl⟩
    · rw [liveEvent, h'] at h; cases h; exact .inr (.inl ⟨b, rfl, hr, ho, rfl⟩)
  | retire =>
    rcases retireStep_cases s with ⟨_, h'⟩ | ⟨b, rest, hp, h'⟩
    · rw [liveEvent, h'] at h; cases h; exact .inl ⟨rfl, rfl, rfl, rfl, .inl rfl⟩
    · rw [liveEvent, h'] at h; cases h; exact .inr (.inr (.inl ⟨b, rest, rfl, hp, rfl⟩))
  | read sel =>
    obtain ⟨v, n, h'⟩ := readStep_cases sel s
    rw [liveEvent, h'] at h; cases h; exact .inl ⟨rfl, rfl, rfl, rfl, .inl rfl⟩
  | assertReset => cases h; exact .inr (.inr (.inr (.inl ⟨rfl, rfl⟩)))
  | releaseReset => cases h; exact .inl ⟨rfl, rfl, rfl, rfl, .inr ⟨rfl, rfl⟩⟩
  | powerLoss => cases h; exact .inr (.inr (.inr (.inr ⟨rfl, rfl⟩)))

/-- The step with something scheduled, after a reset since power-up. -/
theorem step_of_schedule {s : State} {e : Event} {rest : List Event} (hs : s.schedule = e :: rest) (hl : s.live = true) :
    step s = liveEvent e { s with schedule := rest } := by
  simp [step, hs, eventStep, hl]

/-- The quiet step retires the oldest pending command. -/
theorem step_quiet_pending {s : State} {b : Beat} {rest : List Beat} (hs : s.schedule = []) (hl : s.live = true)
    (hp : s.pending = b :: rest) : step s = .next { s with arch := beatEffect b s.arch, pending := rest } := by
  simp only [step, hs, quietStep, hl, hp, if_true, retireStep, execBeat_eq]
  rfl

/-- Everything a live machine's step can do, scheduled or quiet: `rest` is what is left of the schedule. -/
theorem step_next {s t : State} (hl : s.live = true) (h : step s = .next t) :
    (t.arch = s.arch ∧ t.pending = s.pending ∧ t.live = true ∧
      (t.rstN = s.rstN ∨ (s.schedule.head? = some .releaseReset ∧ t.rstN = true))) ∨
    (∃ b, s.rstN = true ∧ s.offered = some b ∧ (s.schedule = [] ∨ s.schedule.head? = some .edge) ∧
      t = { s with pending := s.pending ++ [b], offered := none, schedule := s.schedule.tail }) ∨
    (∃ b rest, s.pending = b :: rest ∧ (s.schedule = [] ∨ s.schedule.head? = some .retire) ∧
      t = { s with arch := beatEffect b s.arch, pending := rest, schedule := s.schedule.tail }) ∨
    (s.schedule.head? = some .assertReset ∧
      t = { s with arch := Arch.reset, pending := [], rstN := false, live := true, schedule := s.schedule.tail }) ∨
    (s.schedule.head? = some .powerLoss ∧ t.live = false) := by
  cases hs : s.schedule with
  | nil =>
    cases hp : s.pending with
    | cons b rest =>
      rw [step_quiet_pending hs hl hp] at h
      cases h
      exact .inr (.inr (.inl ⟨b, rest, rfl, .inl rfl, by simp [hs]⟩))
    | nil =>
      simp only [step, hs, quietStep, hl, hp, if_true] at h
      rcases acceptStep_cases s with h' | ⟨b, hr, ho, h'⟩
      · rw [h'] at h; cases h; exact .inl ⟨rfl, hp, hl, .inl rfl⟩
      · rw [h'] at h; cases h; exact .inr (.inl ⟨b, hr, ho, .inl rfl, by simp [hs, hp]⟩)
  | cons e rest =>
    rw [step_of_schedule hs hl] at h
    rcases liveEvent_next h with ⟨h1, h2, h3, _, h4⟩ | ⟨b, rfl, hr, ho, rfl⟩ | ⟨b, r, rfl, hp, rfl⟩ | ⟨rfl, rfl⟩ | ⟨rfl, rfl⟩
    · refine .inl ⟨h1, h2, h3.trans hl, ?_⟩
      rcases h4 with h4 | ⟨rfl, h4⟩
      · exact .inl h4
      · exact .inr ⟨rfl, h4⟩
    · exact .inr (.inl ⟨b, hr, ho, .inr rfl, rfl⟩)
    · exact .inr (.inr (.inl ⟨b, r, hp, .inr rfl, rfl⟩))
    · exact .inr (.inr (.inr (.inl ⟨rfl, rfl⟩)))
    · exact .inr (.inr (.inr (.inr ⟨rfl, rfl⟩)))

end Sys2Proof.Machine
end

