-- ==== Sys2Proof/Laws/Runs.lean ====
section
/-! SUPPORT. Runs of several steps, and the registers after the pending commands: how the terms of Safety.lean unfold. -/

namespace Sys2Proof.Machine

@[simp] theorem runSteps_zero (s : State) : runSteps 0 s = .next s := rfl

/-- One step and then the rest, for any machine of the host's interface. -/
theorem coreRun_succ_of_next {M : Host.Core} {n : Nat} {s t : M.State} (h : M.step s = .next t) :
    M.run (n + 1) s = M.run n t := by
  simp [Host.Core.run, h]

theorem coreRun_succ_next {M : Host.Core} {n : Nat} {s u : M.State} (h : M.run (n + 1) s = .next u) :
    ∃ t, M.step s = .next t ∧ M.run n t = .next u := by
  cases hs : M.step s with
  | next t => exact ⟨t, rfl, by rw [← coreRun_succ_of_next hs]; exact h⟩
  | fault r => simp [Host.Core.run, hs] at h
  | refused r => simp [Host.Core.run, hs] at h

theorem runSteps_succ_of_next {n : Nat} {s t : State} (h : step s = .next t) : runSteps (n + 1) s = runSteps n t :=
  coreRun_succ_of_next (M := Sys2Proof.core) h

/-- A run that answers a next state answers one at its first step. -/
theorem step_next_of_runSteps {n : Nat} {s u : State} (h : runSteps (n + 1) s = .next u) :
    ∃ t, step s = .next t ∧ runSteps n t = .next u :=
  coreRun_succ_next (M := Sys2Proof.core) h

@[simp] theorem nextOr_execBeat (u s : State) (b : Beat) : nextOr u (execBeat b s) = s.mapArch (beatEffect b) := by
  rw [execBeat_eq]; rfl

/-- Retiring commands one after the other applies their effects to the registers and changes nothing else. -/
theorem retireAll_eq (bs : List Beat) (s : State) :
    retireAll bs s = { s with arch := bs.foldl (fun a b => beatEffect b a) s.arch } := by
  induction bs generalizing s with
  | nil => rfl
  | cons b bs ih => rw [retireAll, nextOr_execBeat, ih]; rfl

theorem settledArch_eq (s : State) : settledArch s = s.pending.foldl (fun a b => beatEffect b a) s.arch := by
  rw [settledArch, retireAll_eq]

end Sys2Proof.Machine
end

