-- ==== Sys2Proof/Laws/Job.lean ====
section
/-! SUPPORT. What the watch of a hash job can do, and that it reads the machine's steps rightly. -/

namespace Sys2Proof.Machine

/-- A job is an INIT, commands that are neither INIT nor FINAL, and a FINAL. -/
theorem endsJob_append {mid : List Beat} {b : Beat} (hm : ∀ c ∈ mid, c.ctl ≠ initCtl ∧ c.ctl ≠ finalCtl) (hb : b.ctl = finalCtl) :
    endsJob (mid ++ [b]) = true := by
  induction mid with
  | nil => simp [endsJob, hb]
  | cons c mid ih =>
    obtain ⟨d, rest, h⟩ : ∃ d rest, mid ++ [b] = d :: rest := List.exists_cons_of_ne_nil (by simp)
    have hc := hm c (by simp)
    have := ih (fun x hx => hm x (by simp [hx]))
    rw [h] at this
    rw [List.cons_append, h, endsJob, this]
    simp [hc.1, hc.2]
    exact nofun

/-- The step takes in exactly the command the watch says it accepts. -/
theorem step_of_acceptedBy {s : State} {b : Beat} (h : acceptedBy s = some b) :
    step s = .next { s with pending := s.pending ++ [b], offered := none, schedule := s.schedule.tail } := by
  unfold acceptedBy at h
  split at h
  · next hc =>
    obtain ⟨hl, hr, hs | ⟨hs, hp⟩⟩ := hc
    · obtain ⟨rest, hs⟩ := List.head?_eq_some_iff.1 hs
      rw [step_of_schedule hs hl]
      simp [liveEvent, acceptStep, hr, h, hs]
    · simp [step, hs, quietStep, hl, hp, acceptStep, hr, h]
  · cases h

/-- The answer of the settled read the watch says the step is; the registers and the pending commands stay. -/
theorem step_of_settledReadBy {s : State} {sel : BitVec 2} (h : settledReadBy s = some sel) :
    s.live = true ∧ s.rstN = true ∧ s.pending = [] ∧
      step s = .next { s with rdSel := sel, rdData := settledValue s.arch sel, schedule := s.schedule.tail } := by
  unfold settledReadBy at h
  split at h
  · next hc =>
    obtain ⟨hl, hr, hp⟩ := hc
    split at h
    · next hs =>
      cases h
      obtain ⟨rest, hs⟩ := List.head?_eq_some_iff.1 hs
      refine ⟨hl, hr, hp, ?_⟩
      rw [step_of_schedule hs hl, hs]
      exact readStep_settled (s := ⟨_, _, _, _, _, _, _, _, rest⟩) hr hp
    · cases h
  · cases h

/-- A step that neither is interrupted nor accepts leaves the settled registers as they are (20_memory.md R35). -/
theorem settledArch_of_not_accepted {s t : State} (hl : s.live = true) (h : step s = .next t) (hi : interruptedBy s = false)
    (ha : acceptedBy s = none) : settledArch t = settledArch s := by
  rcases step_next hl h with ⟨h1, h2, _⟩ | ⟨b, hr, ho, hs, rfl⟩ | ⟨b, rest, hp, _, rfl⟩ | ⟨hs, _⟩ | ⟨hs, _⟩
  · rw [settledArch_eq, settledArch_eq, h1, h2]
  · rcases hs with hs | hs
    · cases hp : s.pending with
      | nil => simp [acceptedBy, hl, hr, hs, hp, ho] at ha
      | cons c rest =>
        rw [step_quiet_pending hs hl hp] at h
        have hlen := congrArg (fun x => x.pending.length) (Host.Outcome.next.inj h)
        simp only [hp, List.length_append, List.length_cons] at hlen
        omega
    · simp [acceptedBy, hl, hr, hs, ho] at ha
  · simp [settledArch_eq, hp]
  · simp [interruptedBy, hs] at hi
  · simp [interruptedBy, hs] at hi

/-- An accepted command is applied after all that were accepted before it (20_memory.md R35). -/
theorem settledArch_of_accepted {s t : State} {b : Beat} (h : step s = .next t) (ha : acceptedBy s = some b) :
    settledArch t = beatEffect b (settledArch s) := by
  rw [step_of_acceptedBy ha] at h
  cases h
  simp [settledArch_eq]

theorem watchStep_of_interrupted {w : JobWatch} {s t : State} (h : interruptedBy s = true) : watchStep w s t = .outside := by
  simp [watchStep, h]

theorem watchStep_of_accepted {w : JobWatch} {s t : State} {b : Beat} (hi : interruptedBy s = false) (h : acceptedBy s = some b) :
    watchStep w s t = w.accept b := by simp [watchStep, hi, h]

theorem watchStep_of_read {w : JobWatch} {s t : State} {sel : BitVec 2} (hi : interruptedBy s = false) (ha : acceptedBy s = none)
    (h : settledReadBy s = some sel) : watchStep w s t = w.read sel t.rdData := by simp [watchStep, hi, ha, h]

theorem watchStep_of_none {w : JobWatch} {s t : State} (hi : interruptedBy s = false) (ha : acceptedBy s = none)
    (h : settledReadBy s = none) : watchStep w s t = w := by simp [watchStep, hi, ha, h]

theorem accept_of_init {b : Beat} (w : JobWatch) (h : b.ctl = initCtl) : w.accept b = .running [b] := by
  cases w <;> simp [JobWatch.accept, h]

theorem accept_running_of_final {b : Beat} (cmds : List Beat) (h : b.ctl = finalCtl) :
    (JobWatch.running cmds).accept b = .ended (cmds ++ [b]) := by
  simp [JobWatch.accept, h, initCtl, finalCtl]

theorem accept_running_of_other {b : Beat} (cmds : List Beat) (hi : b.ctl ≠ initCtl) (hf : b.ctl ≠ finalCtl) :
    (JobWatch.running cmds).accept b = .running (cmds ++ [b]) := by
  rw [JobWatch.accept, if_neg hi, if_neg hf]

/-- After an accepted command the watch has observed nothing. -/
theorem accept_ne_observed (w : JobWatch) (b : Beat) (cmds : List Beat) (v : Word) : w.accept b ≠ .observed cmds v := by
  cases w <;> simp only [JobWatch.accept] <;> (repeat' split) <;> nofun

theorem watchRun_succ_of_next {n : Nat} {w : JobWatch} {s t : State} (h : step s = .next t) :
    watchRun (n + 1) w s = watchRun n (watchStep w s t) t := by simp [watchRun, h]

/-- A watched run takes its first step. -/
theorem step_next_of_watchRun {n : Nat} {w w' : JobWatch} {s : State} (h : watchRun (n + 1) w s = some w') :
    ∃ t, step s = .next t ∧ watchRun n (watchStep w s t) t = some w' := by
  cases hs : step s with
  | next t => exact ⟨t, rfl, by rw [← watchRun_succ_of_next hs]; exact h⟩
  | fault r => simp [watchRun, hs] at h
  | refused r => simp [watchRun, hs] at h

/-- A run is watched to its end. -/
theorem watchRun_of_runSteps {n : Nat} {w : JobWatch} {s t : State} (h : runSteps n s = .next t) :
    ∃ w', watchRun n w s = some w' := by
  induction n generalizing w s with
  | zero => exact ⟨w, rfl⟩
  | succ n ih =>
    obtain ⟨u, hu, h⟩ := step_next_of_runSteps h
    rw [watchRun_succ_of_next hu]
    exact ih h

/-- The last step of a watched run. -/
theorem watchRun_last {n : Nat} {w w' : JobWatch} {s t u : State} (h : runSteps n s = .next t) (hw : watchRun n w s = some w')
    (hu : step t = .next u) : watchRun (n + 1) w s = some (watchStep w' t u) := by
  induction n generalizing w s with
  | zero =>
    cases h
    cases hw
    simp [watchRun, hu]
  | succ n ih =>
    obtain ⟨x, hx, h⟩ := step_next_of_runSteps h
    rw [watchRun_succ_of_next hx] at hw ⊢
    exact ih h hw

/-- A settled read under the watch: the word read is the register's value. -/
theorem watchRun_settled_read {n : Nat} {w : JobWatch} {s : State} {sel : BitVec 2} {es : List Event} (hs : s.Settled)
    (h : s.schedule = .read sel :: es) : watchRun (n + 1) w s = watchRun n (w.read sel (settledValue s.arch sel))
      { s with rdSel := sel, rdData := settledValue s.arch sel, schedule := es } := by
  have hr : settledReadBy s = some sel := by simp [settledReadBy, hs.1, hs.2.1, hs.2.2, h]
  have ha : acceptedBy s = none := by simp [acceptedBy, h]
  have hi : interruptedBy s = false := by unfold interruptedBy; rw [h]; rfl
  have hn := (step_of_settledReadBy hr).2.2.2
  rw [h, List.tail_cons] at hn
  rw [watchRun_succ_of_next hn, watchStep_of_read hi ha hr]

/-- What an observation is. -/
theorem hashJobObservation_eq_some_iff {n : Nat} {s : State} {cmds : List Beat} {v : Word} :
    hashJobObservation n s = some (cmds, v) ↔ watchRun n .outside s = some (.observed cmds v) := by
  unfold hashJobObservation
  split
  · next c x h => simp [h]
  · next h => exact ⟨nofun, fun h' => absurd h' (h cmds v)⟩

end Sys2Proof.Machine
end

