-- ==== Sys2Proof/Laws/PerInstr.lean ====
section
/-! SUPPORT. Statements about every command as syntax, one lemma per constructor of Instr. -/

namespace Sys2Proof.Laws

/-- `EncodedControl`: the control byte of an encoded command passes the decode check exactly where the command is well formed,
and an encoded command carries its 32-bit operand unchanged. -/
def EncodedControl.Statement (i : Instr) : Prop :=
  (decodeCheck (encode i).ctl = none ↔ i.wellFormed = true) ∧ ctlRsv (encode i).ctl = 0

theorem EncodedControl.nop (x : Word) : EncodedControl.Statement (.nop x) := by
  simp only [EncodedControl.Statement, encode, Instr.wellFormed]; decide

theorem EncodedControl.init (seed : Word) : EncodedControl.Statement (.init seed) := by
  simp only [EncodedControl.Statement, encode, Instr.wellFormed]; decide

theorem EncodedControl.block (k : Word) : EncodedControl.Statement (.block k) := by
  simp only [EncodedControl.Statement, encode, Instr.wellFormed]; decide

theorem EncodedControl.tail (n : BitVec 2) (t : Word) : EncodedControl.Statement (.tail n t) := by
  simp only [EncodedControl.Statement, encode, Instr.wellFormed]; revert n; decide

theorem EncodedControl.final (x : Word) : EncodedControl.Statement (.final x) := by
  simp only [EncodedControl.Statement, encode, Instr.wellFormed]; decide

end Sys2Proof.Laws
end

