-- ==== Sys2Proof/Tests/Slice0.lean ====
section
/-! SUPPORT. The model's own tests. Every expected value is transcribed from spec/95_test_vectors.md or from the rule named, none is
the model's answer. The second part holds, for each statement with hypotheses, a concrete case that meets all of them. -/

namespace Sys2Proof.Tests

open Sys2Proof Sys2Proof.Machine

/-! ### Helpers -/

/-- The next state of an outcome, if there is one. -/
def next? : Host.Outcome State Fault Refusal → Option State
  | .next t => some t
  | .fault _ => none
  | .refused _ => none

/-- Whether an outcome is this refusal. -/
def refusedBy (r : Refusal) : Host.Outcome State Fault Refusal → Bool
  | .next _ => false
  | .fault _ => false
  | .refused q => q == r

/-- The reset state with these registers, ERR = 0 and RESULT = 0. -/
def stateAt (h len : Word) (phase : Phase) : State :=
  { State.reset with arch := { Arch.reset with h := h, len := len, phase := phase } }

/-- The same with ERR = 1 and a code. -/
def errorAt (h len : Word) (phase : Phase) (code : BitVec 3) : State :=
  { State.reset with arch := { Arch.reset with h := h, len := len, phase := phase, err := true, ecode := code } }

/-- A settled state with these events to come. -/
def scheduled (es : List Event) : State := { State.reset with schedule := es }

/-- The registers after a beat takes its effect. -/
def archAfter (b : Beat) (s : State) : Option Arch := (next? (execBeat b s)).map State.arch

/-- A settled STATUS after a beat takes its effect. -/
def statusAfter (b : Beat) (s : State) : Option Word := (archAfter b s).map (fun a => settledValue a 1)

/-- "hello", as bytes. -/
def hello : List Byte := [0x68, 0x65, 0x6c, 0x6c, 0x6f]

/-- "hello world", as bytes. -/
def helloWorld : List Byte := hello ++ [0x20, 0x77, 0x6f, 0x72, 0x6c, 0x64]

/-! ### WellFormed: the one check refuses its ill-formed term (30_encoding.md R42, R45) -/

theorem test_wellFormed_refuses_tail_of_no_bytes : (Instr.tail 0 0x00646c72).wellFormed = false := by decide
theorem test_wellFormed_accepts_tail_of_one_and_three :
    (Instr.tail 1 0xffffff21).wellFormed = true ∧ (Instr.tail 3 0).wellFormed = true := by decide
theorem test_wellFormed_accepts_the_others :
    (Instr.nop 5).wellFormed = true ∧ (Instr.init 0).wellFormed = true ∧ (Instr.block 0).wellFormed = true ∧
      (Instr.final 0xffffffff).wellFormed = true := by decide

/-! ### Decode: words written out from R42's encodings, as 40-bit numbers (bit 39 first) -/

theorem test_decode_nop : decodeTableWord 40 0b00000000_11011110_10101101_10111110_11101111 = some (.nop 0xdeadbeef) := by decide
theorem test_decode_init : decodeTableWord 40 0b00000001_00000000_00000000_00000000_00101010 = some (.init 0x0000002a) := by decide
theorem test_decode_block : decodeTableWord 40 0b00000010_01101100_01101100_01100101_01101000 = some (.block 0x6c6c6568) := by decide
theorem test_decode_tail1 : decodeTableWord 40 0b00001011_11111111_11111111_11111111_00100001 = some (.tail 1 0xffffff21) := by decide
theorem test_decode_tail2 : decodeTableWord 40 0b00010011_00000000_00000000_00000000_00000001 = some (.tail 2 0x00000001) := by decide
theorem test_decode_tail3 : decodeTableWord 40 0b00011011_00000000_01100100_01101100_01110010 = some (.tail 3 0x00646c72) := by decide
theorem test_decode_final : decodeTableWord 40 0b00000100_11011110_10101101_10111110_11101111 = some (.final 0xdeadbeef) := by decide

/-- Table 2.11: E1, E5 ILLEGAL_OP; E2, E4, E6 RESERVED_FIELD; E3 TAIL_ZERO. -/
theorem test_decodeCheck_of_the_error_table :
    decodeCheck 0x05 = some .illegalOp ∧ decodeCheck 0xe5 = some .illegalOp ∧ decodeCheck 0x21 = some .reservedField ∧
      decodeCheck 0x0a = some .reservedField ∧ decodeCheck 0x23 = some .reservedField ∧ decodeCheck 0x03 = some .tailZero := by
  decide
theorem test_decodeTableWord_refuses_longer_words : decodeTableWord 48 0 = none := by decide
/-- A row given no bits of the data word: the bits above are 0. -/
theorem test_decodeTableWord_takes_the_low_bits_only : decodeTableWord 32 0xff_12345678 = some (.nop 0x12345678) := by decide

/-- R42, R48: the beats of the commands. -/
theorem test_encode_beats :
    encode (.init 0x2a) = ⟨0x01, 0x0000002a⟩ ∧ encode (.block 0x6c6c6568) = ⟨0x02, 0x6c6c6568⟩ ∧
      encode (.tail 3 0x00646c72) = ⟨0x1b, 0x00646c72⟩ ∧ encode (.tail 1 0x21) = ⟨0x0b, 0x00000021⟩ ∧
      encode (.final 0) = ⟨0x04, 0x00000000⟩ ∧ encode (.nop 0) = ⟨0x00, 0x00000000⟩ := by decide

/-! ### The units: sections 2.1 to 2.9 -/

theorem test_mac : mac 0x2a 5 0xe6546b64 = 0xe6546c36 ∧ mac 0xffffffff 0xffffffff 0xffffffff = 0 ∧
    mac 0x12345678 0x9abcdef0 0x11111111 = 0x353e3191 ∧ mac 0xffffffff 5 0xe6546b64 = 0xe6546b5f := by decide
theorem test_rotl : rotl 0x12345678 13 = 0x8acf0246 ∧ rotl 0x80000001 15 = 0x0000c000 ∧ rotl 0x12345678 32 = 0x12345678 ∧
    rotl 0x12345678 31 = 0x091a2b3c := by decide
theorem test_xorMix : xorMix 0x07ff5c6c 0x0000000b = 0x07ff5c67 := by decide
theorem test_xorshift : xorshift 0x80000000 13 = 0x80040000 ∧ xorshift 0xdeadbeef 16 = 0xdead6042 := by decide
theorem test_kmix : kmix 0x6f77206f = 0x24bdbc89 ∧ kmix 0xffffffff = 0xbbeeb010 ∧ kmix 0x12345678 = 0x6e163dcb := by decide
theorem test_hmix : hmix 0xef062fcd 0x6f77206f = 0x225f6ab7 ∧ hmix 0xffffffff 0xffffffff = 0xb849f5ee := by decide
theorem test_fmix : fmix 0x80000000 = 0x6d3c65a0 ∧ fmix 0xdeadbeef = 0x0de5c6a9 := by decide
theorem test_finalMix : finalMix 0x07ff5c6c 11 = 0xea0c9bf9 ∧ finalMix 0 4 = 0x249cb285 := by decide
theorem test_tailKey : tailKey 1 0xffffff6f = 0x0000006f ∧ tailKey 2 0xffff4321 = 0x00004321 ∧
    tailKey 3 0xffffffff = 0x00ffffff := by decide

/-! ### The reference function: section 3 -/

theorem test_murmur3_hello_world : murmur3 helloWorld 42 = 0xea0c9bf9 := by decide
theorem test_murmur3_hello : murmur3 hello 42 = 0xe2dbd2e1 := by decide
theorem test_murmur3_two_bytes : murmur3 [0x21, 0x43] 0 = 0xa0f7b07a := by decide
theorem test_murmur3_three_bytes : murmur3 [0x21, 0x43, 0x65] 0 = 0x7e4a8634 := by decide
theorem test_murmur3_four_bytes : murmur3 [0x21, 0x43, 0x65, 0x87] 0x5082edee = 0x2362f9de := by decide

/-! ### One step a command: sections 2.10 and 2.11 -/

/-- V1. -/
theorem test_nop_changes_nothing :
    archAfter ⟨0x00, 0x00000000⟩ (stateAt 0x2a 0 .absorb) = some (stateAt 0x2a 0 .absorb).arch := by decide
/-- V3: a restart keeps RESULT. -/
theorem test_init_keeps_result :
    archAfter ⟨0x01, 0x00000000⟩ ((stateAt 0x12345678 7 .tailed).mapArch (fun a => { a with result := 0x1d8bce71 })) =
      some { h := 0, len := 0, phase := .absorb, result := 0x1d8bce71, err := false, ecode := 0 } := by decide
/-- E17. -/
theorem test_init_leaves_the_error_state :
    archAfter ⟨0x01, 0x5082edee⟩ (errorAt 9 9 .tailed 4) = some (stateAt 0x5082edee 0 .absorb).arch := by decide
/-- V4. -/
theorem test_block_mixes : archAfter ⟨0x02, 0x6c6c6568⟩ (stateAt 0x2a 0 .absorb) = some (stateAt 0xef062fcd 4 .absorb).arch := by
  decide
/-- V6. -/
theorem test_block_len_wraps : archAfter ⟨0x02, 0⟩ (stateAt 0 0xfffffffc .absorb) = some (stateAt 0xe6546b64 0 .absorb).arch := by
  decide
/-- V8. -/
theorem test_tail_mixes : archAfter ⟨0x1b, 0x00646c72⟩ (stateAt 0x225f6ab7 8 .absorb) = some (stateAt 0x07ff5c6c 11 .tailed).arch := by
  decide
/-- V13. -/
theorem test_tail_len_wraps :
    archAfter ⟨0x1b, 0x00abcdef⟩ (stateAt 0 0xfffffffe .absorb) = some (stateAt 0x12389718 1 .tailed).arch := by decide
/-- V14. -/
theorem test_final_after_tail : archAfter ⟨0x04, 0⟩ (stateAt 0x07ff5c6c 11 .tailed) =
    some { h := 0xea0c9bf9, len := 11, phase := .done, result := 0xea0c9bf9, err := false, ecode := 0 } := by decide
/-- V16: the data word is ignored. -/
theorem test_final_ignores_data : archAfter ⟨0x04, 0xdeadbeef⟩ (stateAt 1 0 .absorb) =
    some { h := 0x514e28b7, len := 0, phase := .done, result := 0x514e28b7, err := false, ecode := 0 } := by decide

/-- E1, E2, E3, E6. -/
theorem test_status_after_illegal_beats :
    statusAfter ⟨0x05, 0⟩ (stateAt 0 0 .idle) = some 0x0000000c ∧ statusAfter ⟨0x21, 0⟩ (stateAt 0 0 .absorb) = some 0x00000015 ∧
      statusAfter ⟨0x03, 0⟩ (stateAt 0 0 .absorb) = some 0x0000001d ∧
      statusAfter ⟨0x23, 0⟩ (stateAt 0 0 .absorb) = some 0x00000015 := by decide
/-- E8, E9, E11, E12, E13. -/
theorem test_status_after_sequence_errors :
    statusAfter ⟨0x02, 0x1234⟩ (stateAt 0 0 .idle) = some 0x00000024 ∧ statusAfter ⟨0x04, 0⟩ (stateAt 0 0 .idle) = some 0x00000024 ∧
      statusAfter ⟨0x04, 0⟩ (stateAt 0 0 .done) = some 0x00000027 ∧ statusAfter ⟨0x13, 1⟩ (stateAt 0 0 .tailed) = some 0x00000026 ∧
      statusAfter ⟨0x02, 0x87654321⟩ (stateAt 0 0 .tailed) = some 0x00000026 := by decide
/-- E14, E15, E16. -/
theorem test_dropped_while_in_error :
    archAfter ⟨0x04, 0⟩ (errorAt 9 9 .tailed 4) = some (errorAt 9 9 .tailed 4).arch ∧
      archAfter ⟨0x05, 0⟩ (errorAt 9 9 .tailed 4) = some (errorAt 9 9 .tailed 4).arch ∧
      archAfter ⟨0x21, 7⟩ (errorAt 9 9 .tailed 4) = some (errorAt 9 9 .tailed 4).arch := by decide

/-! ### The ports: section 2.12 and R39, R98 to R104 -/

/-- The very next step runs the command of a table word: INIT 0x2a right after reset (V2). -/
theorem test_step_runs_the_fetched_word :
    next? (step (State.reset.withFetchWord 40 0x010000002a)) = some (stateAt 0x2a 0 .absorb) := by decide
/-- RD1, RD2. -/
theorem test_reads_after_reset : (next? (readStep 1 State.reset)).map State.rdData = some 0 ∧
    (next? (readStep 2 State.reset)).map State.rdData = some 0 := by decide
/-- RD4, RD5: after V14. -/
theorem test_reads_after_final :
    (next? (readStep 1 (stateAt 1 11 .done))).map State.rdData = some 0x00000003 ∧
      (next? (readStep 3 (stateAt 1 11 .done))).map State.rdData = some 0x0000000b := by decide
/-- RD10: a reset discards the pending BLOCK. -/
theorem test_reset_discards_pending :
    (next? (resetStep { stateAt 7 0 .absorb with pending := [⟨0x02, 0⟩] })).map (fun t => (t.arch, t.pending)) =
      some (Arch.reset, []) := by decide
/-- R39: an offered beat is accepted at an edge; the register does not change yet. -/
theorem test_accept_takes_the_offer :
    (next? (acceptStep { State.reset with offered := some ⟨0x01, 7⟩ })).map (fun t => (t.pending, t.offered, t.arch)) =
      some ([⟨0x01, 7⟩], none, Arch.reset) := by decide
/-- 93 U10. -/
theorem test_changed_offer_is_refused :
    refusedBy .unstableOffer (offerStep ⟨0x01, 8⟩ { State.reset with offered := some ⟨0x01, 7⟩ }) = true := by decide
/-- 93 U4. -/
theorem test_no_step_before_the_first_reset :
    refusedBy .noResetSincePowerUp (step { State.reset with live := false, schedule := [.edge] }) = true := by decide

/-! ### The hash job: R107, with the hash of "h" under seed 42 from section 3 -/

/-- The job of one byte, its commands accepted one after the other and retired, then these events. -/
def jobOfH (es : List Event) : State :=
  scheduled ((asmHash 42 [0x68]).flatMap (fun i => [.offer (encode i), .edge, .retire]) ++ es)

theorem test_job_is_observed : hashJobObservation 11 (jobOfH [.read 1, .read 0]) =
    some ([⟨0x01, 0x2a⟩, ⟨0x0b, 0x68⟩, ⟨0x04, 0⟩], 0x2e9b30b6) := by decide
/-- A NOP accepted between the FINAL and the reads: there is no observation. -/
theorem test_no_observation_after_a_command :
    hashJobObservation 14 (jobOfH [.offer ⟨0x00, 0⟩, .edge, .retire, .read 1, .read 0]) = none := by decide
/-- RESULT read before STATUS, and STATUS read after it only: no observation. -/
theorem test_no_observation_without_status : hashJobObservation 11 (jobOfH [.read 0, .read 1]) = none := by decide
theorem test_isHashJob : isHashJob [⟨0x01, 7⟩, ⟨0x02, 0⟩, ⟨0x04, 0⟩] = true ∧ isHashJob [⟨0x01, 7⟩, ⟨0x02, 0⟩] = false ∧
    isHashJob [⟨0x01, 7⟩, ⟨0x04, 0⟩, ⟨0x04, 0⟩] = false ∧ isHashJob [⟨0x02, 0⟩, ⟨0x04, 0⟩] = false := by decide

/-! ### The assembler: R48, R49 and the program texts of section 4 -/

theorem test_assemble_tail_masks_the_word : assemble (.tail 1 0xffffff21) = some [⟨0x0b, 0x00000021⟩] := by decide
theorem test_assemble_blockB : assemble (.blockB 0x68 0x65 0x6c 0x6c) = some [⟨0x02, 0x6c6c6568⟩] := by decide
/-- P1. -/
theorem test_assemble_hash : assemble (.hash 42 helloWorld) =
    some [⟨0x01, 0x2a⟩, ⟨0x02, 0x6c6c6568⟩, ⟨0x02, 0x6f77206f⟩, ⟨0x1b, 0x00646c72⟩, ⟨0x04, 0⟩] := by decide
theorem test_disassemble_nonzero_ignored_lane : disassemble ⟨0x0b, 0xffffff6f⟩ = .beat ⟨0x0b, 0xffffff6f⟩ := by decide
/-- `TAIL 2, 0x0001 ; two`. -/
theorem test_assembleText_tail : assembleText
    ['T', 'A', 'I', 'L', ' ', '2', ',', ' ', '0', 'x', '0', '0', '0', '1', ' ', ';', ' ', 't', 'w', 'o'] = some [⟨0x13, 0x00000001⟩] := by decide
/-- `HASH 42,` and "hello" with an escape for its e. -/
theorem test_assembleText_string : assembleText
    ['H', 'A', 'S', 'H', ' ', '4', '2', ',', ' ', '\"', 'h', '\\', 'x', '6', '5', 'l', 'l', 'o', '\"'] =
    some [⟨0x01, 0x2a⟩, ⟨0x02, 0x6c6c6568⟩, ⟨0x0b, 0x6f⟩, ⟨0x04, 0⟩] := by decide
theorem test_assembleText_refuses_a_wide_number : assembleText
    ['I', 'N', 'I', 'T', ' ', '0', 'x', '1', '0', '0', '0', '0', '0', '0', '0', '0'] = none := by decide
/-- `.beat 0x0b, 0xffffff6f`. -/
theorem test_disassembleText_beat : disassembleText ⟨0x0b, 0xffffff6f⟩ =
    ['.', 'b', 'e', 'a', 't', ' ', '0', 'x', '0', 'b', ',', ' ', '0', 'x', 'f', 'f', 'f', 'f', 'f', 'f', '6', 'f'] := by decide

/-! ### Witnesses: for each statement with hypotheses, a case that meets them all -/

/-- RotlMovesBitsModulo32: the bounds of a bit, and amounts that are 0 modulo 32. -/
theorem witness_RotlMovesBitsModulo32 : (0 < 32 ∧ 31 < 32) ∧ 0 % 32 = 0 ∧ 64 % 32 = 0 := by decide

/-- XorMixIsBitwise. -/
theorem witness_XorMixIsBitwise : 0 < 32 ∧ 31 < 32 := by decide

/-- XorshiftKeepsTheTopBits: the lowest and the highest kept bit for S1, and a shift that keeps one bit. -/
theorem witness_XorshiftKeepsTheTopBits : (16 < 32 ∧ 32 - 16 ≤ 16) ∧ (31 < 32 ∧ 32 - 16 ≤ 31) ∧ (31 < 32 ∧ 32 - 1 ≤ 31) := by decide

/-- KmixStepsAndBijection. -/
theorem witness_KmixStepsAndBijection : ∃ k t1 t2 : Word, t1 = mac k 0xcc9e2d51 0 ∧ t2 = rotl t1 15 :=
  ⟨0x6c6c6568, 0xd24f5de8, 0xaef46927, by decide, by decide⟩

/-- HmixStepsAndCancellation, each clause. -/
theorem witness_HmixStepsAndCancellation :
    (∃ h k u1 u2 : Word, u1 = h ^^^ kmix k ∧ u2 = rotl u1 13) ∧ (∃ h k : Word, h = kmix k) :=
  ⟨⟨0x2a, 0x6c6c6568, 0xa0ae744f, 0xce89f415, by decide, by decide⟩, ⟨0x5082edee, 0x87654321, by decide⟩⟩

/-- FmixStepsAndBijection. -/
theorem witness_FmixStepsAndBijection : ∃ h v1 v2 v3 v4 : Word, v1 = xorshift h 16 ∧ v2 = mac v1 0x85ebca6b 0 ∧
    v3 = xorshift v2 13 ∧ v4 = mac v3 0xc2b2ae35 0 :=
  ⟨1, 1, 0x85ebca6b, 0x85efe535, 0x514e79f9, by decide, by decide, by decide, by decide⟩

/-- TailKeyIsTheLowLanes: the last lane of a count, the first bit above it, two words that agree below it. -/
theorem witness_TailKeyIsTheLowLanes : 2 < (3 : BitVec 2).toNat ∧ 8 * (3 : BitVec 2).toNat ≤ 24 ∧
    (∀ i : Nat, i < (1 : BitVec 2).toNat → lane 0xffffff21 i = lane 0x00000021 i) := by decide

/-- BeatFieldsOfTheFortyBits: a TAIL and a command that is none. -/
theorem witness_BeatFieldsOfTheFortyBits : decode ⟨0x1b, 0⟩ = .ok (.tail 3 0) ∧ decode ⟨0x01, 7⟩ = .ok (.init 7) ∧
    (∀ n t, Instr.init 7 ≠ .tail n t) :=
  ⟨(decode_legal 0).2.2.2.2.2.1, (decode_legal 7).2.1, nofun⟩

/-- DecodeOfEncodeIsTheCommand: one command of each constructor, and both ends of TAIL's count. -/
theorem witness_DecodeOfEncodeIsTheCommand :
    (Instr.nop 0xffffffff).wellFormed = true ∧ (Instr.init 0).wellFormed = true ∧ (Instr.block 1).wellFormed = true ∧
      (Instr.tail 1 0xffffffff).wellFormed = true ∧ (Instr.tail 3 0).wellFormed = true ∧ (Instr.final 5).wellFormed = true := by decide

/-- EncodeOfDecodeIsTheBeat. -/
theorem witness_EncodeOfDecodeIsTheBeat : decode ⟨0x13, 0xdeadbeef⟩ = .ok (.tail 2 0xdeadbeef) :=
  (decode_legal 0xdeadbeef).2.2.2.2.1

/-- OpcodeMapMatchAndMask, the clause on TAIL's operands. -/
theorem witness_OpcodeMapMatchAndMask : decode ⟨0x0b, 0x21⟩ = .ok (.tail 1 0x21) := (decode_legal 0x21).2.2.2.1

/-- DecodeCheckInItsOrder, the clause on the data word. -/
theorem witness_DecodeCheckInItsOrder : decode ⟨0xe5, 0xffffffff⟩ = .error .illegalOp := rfl

/-- IllegalBeatsRaiseTheirCode: the state, and control bytes at the ends of each clause. -/
theorem witness_IllegalBeatsRaiseTheirCode : State.reset.arch.err = false ∧
    ((0x05 : Byte).toNat % 8 = 5 ∧ (0xff : Byte).toNat % 8 = 7) ∧
    ((0x20 : Byte).toNat % 8 ≤ 4 ∧ (0x20 : Byte).toNat / 32 ≠ 0) ∧
    ((0x0c : Byte).toNat % 8 ≤ 4 ∧ (0x0c : Byte).toNat % 8 ≠ 3 ∧ (0x0c : Byte).toNat / 8 % 4 ≠ 0) ∧
    ((0x23 : Byte).toNat % 8 ≤ 4 ∧ (0x23 : Byte).toNat / 32 ≠ 0) := by decide

/-- IgnoredBitsHaveNoEffect. -/
theorem witness_IgnoredBitsHaveNoEffect : (0xffffff21 : Word) &&& tailMask 1 = 0x00000021 &&& tailMask 1 ∧
    (Instr.nop 3).wellFormed = true ∧ (Instr.final 3).wellFormed = true := by decide

/-- NopCompletesUnchanged, its error clause, at both ends. -/
theorem witness_NopCompletesUnchanged : ((0x08 : Byte).extractLsb' 0 3 = 0b000#3 ∧ (0x08 : Byte).extractLsb' 3 5 ≠ 0) ∧
    ((0xf8 : Byte).extractLsb' 0 3 = 0b000#3 ∧ (0xf8 : Byte).extractLsb' 3 5 ≠ 0) := by decide

/-- InitCompletesFromEveryState: a command dropped in error, two INITs, a control byte in error. -/
theorem witness_InitCompletesFromEveryState :
    ((errorAt 0 0 .idle 1).arch.err = true ∧ (∀ seed, Instr.block 0 ≠ .init seed)) ∧
    (∃ t, exec (.init 1) State.reset = .next t) ∧
    ((0x21 : Byte).extractLsb' 0 3 = 0b001#3 ∧ (0x21 : Byte).extractLsb' 3 5 ≠ 0) :=
  ⟨⟨rfl, nofun⟩, ⟨_, rfl⟩, by decide, by decide⟩

/-- BlockCompletesInAbsorb: in ABSORB, outside it, in error, and the example's state. -/
theorem witness_BlockCompletesInAbsorb :
    ((stateAt 0x2a 0 .absorb).arch.err = false ∧ (stateAt 0x2a 0 .absorb).arch.phase = .absorb ∧
      (stateAt 0x2a 0 .absorb).arch.h = 0x0000002a ∧ (stateAt 0x2a 0 .absorb).arch.len = 0) ∧
    ((stateAt 1 1 .tailed).arch.err = false ∧ (stateAt 1 1 .tailed).arch.phase ≠ .absorb) ∧
    ((0x0a : Byte).extractLsb' 0 3 = 0b010#3 ∧ (0x0a : Byte).extractLsb' 3 5 ≠ 0) := by decide

/-- TailCompletesInAbsorb: in ABSORB, outside it, in error, lanes that agree, a key of 0, and the example's state. -/
theorem witness_TailCompletesInAbsorb :
    ((stateAt 0x225f6ab7 8 .absorb).arch.err = false ∧ (stateAt 0x225f6ab7 8 .absorb).arch.phase = .absorb ∧
      (stateAt 0x225f6ab7 8 .absorb).arch.h = 0x225f6ab7 ∧ (stateAt 0x225f6ab7 8 .absorb).arch.len = 8) ∧
    ((stateAt 1 1 .done).arch.err = false ∧ (stateAt 1 1 .done).arch.phase ≠ .absorb) ∧
    ((0x23 : Byte).extractLsb' 0 3 = 0b011#3 ∧ (0x23 : Byte).extractLsb' 5 3 ≠ 0) ∧
    (∀ i : Nat, i < (2 : BitVec 2).toNat → lane 0xffff4321 i = lane 0x00004321 i) ∧
    tailKey 1 0xffffff00 = 0 := by decide

/-- FinalCompletesInAbsorbOrTailed: in both phases, outside them, in error, after INIT, and the example's state. -/
theorem witness_FinalCompletesInAbsorbOrTailed :
    ((stateAt 1 0 .absorb).arch.err = false ∧ (stateAt 1 0 .absorb).arch.phase = .absorb) ∧
    ((stateAt 0x07ff5c6c 11 .tailed).arch.err = false ∧ (stateAt 0x07ff5c6c 11 .tailed).arch.phase = .tailed ∧
      (stateAt 0x07ff5c6c 11 .tailed).arch.h = 0x07ff5c6c ∧ (stateAt 0x07ff5c6c 11 .tailed).arch.len = 11) ∧
    (State.reset.arch.err = false ∧ State.reset.arch.phase = .idle) ∧
    ((stateAt 1 0 .done).arch.err = false ∧ (stateAt 1 0 .done).arch.phase = .done) ∧
    ((0x0c : Byte).extractLsb' 0 3 = 0b100#3 ∧ (0x0c : Byte).extractLsb' 3 5 ≠ 0) ∧
    (∃ t, exec (.init 0) State.reset = .next t) :=
  ⟨by decide, by decide, by decide, by decide, by decide, _, rfl⟩

/-- LegalityOfEachCommandInEachPhase and StickyErrorDropsAllButInit: ERR = 0 in each phase; ERR = 1 with the two kinds of beat. -/
theorem witness_LegalityOfEachCommandInEachPhase :
    (State.reset.arch.err = false ∧ State.reset.arch.phase = .idle) ∧
    ((stateAt 1 0 .absorb).arch.err = false ∧ (stateAt 1 0 .absorb).arch.phase = .absorb) ∧
    ((stateAt 1 1 .tailed).arch.err = false ∧ (stateAt 1 1 .tailed).arch.phase = .tailed) ∧
    ((stateAt 1 0 .done).arch.err = false ∧ (stateAt 1 0 .done).arch.phase = .done) := by decide
theorem witness_StickyErrorDropsAllButInit : (errorAt 0 0 .idle 4).arch.err = true ∧
    (Beat.mk 0x02 0).ctl ≠ 0x01 ∧ (Beat.mk 0x21 7).ctl ≠ 0x01 ∧ (Beat.mk 0x01 7).ctl = 0x01 ∧
    (stateAt 1 0 .absorb).arch.err = false ∧ (stateAt 1 0 .absorb).arch.phase = .absorb ∧
    (stateAt 1 1 .tailed).arch.phase = .tailed := by decide

/-- CommandsChangeOnlyTheirRegisters: a performed command of each constructor and one in error. -/
theorem witness_CommandsChangeOnlyTheirRegisters :
    (∃ t, exec (.nop 1) State.reset = .next t) ∧ (∃ t, exec (.init 1) State.reset = .next t) ∧
    (∃ t, exec (.block 1) (stateAt 1 0 .absorb) = .next t) ∧ (∃ t, exec (.tail 3 1) (stateAt 1 0 .absorb) = .next t) ∧
    (∃ t, exec (.final 1) (stateAt 1 1 .tailed) = .next t) ∧ (∃ t, exec (.block 1) State.reset = .next t) ∧
    (∀ x, Instr.block 1 ≠ .final x) ∧ (∀ seed, Instr.block 1 ≠ .init seed) :=
  ⟨⟨_, rfl⟩, ⟨_, rfl⟩, ⟨_, rfl⟩, ⟨_, rfl⟩, ⟨_, rfl⟩, ⟨_, rfl⟩, nofun, nofun⟩

/-- HashCommandsComputeMurmur3: the first and the last number of commands of a hash of five bytes. -/
theorem witness_HashCommandsComputeMurmur3 : 0 < 1 ∧ 1 ≤ (asmHash 42 hello).length ∧ 0 < 4 ∧ 4 ≤ (asmHash 42 hello).length := by decide

/-- HashJobThroughThePorts: a settled state with nothing offered whose schedule is the job of five bytes and the two reads; an
observed job, of the commands of a HASH; a run to a step that accepts, to a reset and to a loss of power. -/
theorem witness_HashJobThroughThePorts :
    (∃ (d : List Byte) (seed : Word) (s : State) (es : List Event), s.Settled ∧ s.offered = none ∧ d.length = 5 ∧
      s.schedule = (asmHash seed d).flatMap (fun i => [.offer (encode i), .edge, .retire]) ++ .read 1 :: .read 0 :: es) ∧
    (∃ (n : Nat) (s : State) (cmds : List Beat) (v : Word), hashJobObservation n s = some (cmds, v) ∧
      cmds = (asmHash 42 [0x68]).map encode) ∧
    (∃ (n : Nat) (s t : State), runSteps n s = .next t ∧ ∃ b, acceptedBy t = some b) ∧
    (∃ (n : Nat) (s t : State), runSteps n s = .next t ∧ t.schedule.head? = some .assertReset) ∧
    (∃ (n : Nat) (s t : State), runSteps n s = .next t ∧ t.schedule.head? = some .powerLoss) :=
  ⟨⟨hello, 42, scheduled ((asmHash 42 hello).flatMap (fun i => [.offer (encode i), .edge, .retire]) ++ [.read 1, .read 0]), [],
      by decide, rfl, rfl, rfl⟩,
    ⟨11, jobOfH [.read 1, .read 0], _, _, test_job_is_observed, by decide⟩,
    ⟨1, scheduled [.offer ⟨0x00, 0⟩, .edge], _, rfl, ⟨0x00, 0⟩, rfl⟩, ⟨0, scheduled [.assertReset], _, rfl, rfl⟩,
    ⟨0, scheduled [.powerLoss], _, rfl, rfl⟩⟩

/-- InitForgetsTheOldHash. -/
theorem witness_InitForgetsTheOldHash : (stateAt 1 8 .absorb).arch.result = (errorAt 5 1 .tailed 4).arch.result ∧
    (∃ t, exec (.init 3) (stateAt 1 8 .absorb) = .next t) ∧ (∃ t, exec (.init 3) (errorAt 5 1 .tailed 4) = .next t) :=
  ⟨rfl, ⟨_, rfl⟩, ⟨_, rfl⟩⟩

/-- ErrorActionChangesOnlyErrAndEcode and FirstErrorInPriorityOrder: a beat that raises an error, and one dropped. -/
theorem witness_ErrorActionChangesOnlyErrAndEcode :
    (State.reset.arch.err = false ∧ ∃ t, execBeat ⟨0xe5, 0⟩ State.reset = .next t ∧ t.arch.err = true) ∧
    ((errorAt 0 0 .idle 2).arch.err = true ∧ ∃ t, execBeat ⟨0xe5, 0⟩ (errorAt 0 0 .idle 2) = .next t ∧ t.arch.err = true) :=
  ⟨⟨rfl, _, rfl, by decide⟩, rfl, _, rfl, by decide⟩
theorem witness_FirstErrorInPriorityOrder :
    (State.reset.arch.err = false ∧ State.reset.arch.phase = .idle ∧
      ∃ t, execBeat ⟨0x0a, 0⟩ State.reset = .next t ∧ t.arch.err = true) ∧
    ((errorAt 0 0 .idle 2).arch.err = true ∧ ∃ t, execBeat ⟨0x02, 0⟩ (errorAt 0 0 .idle 2) = .next t ∧ t.arch.err = true) :=
  ⟨⟨rfl, rfl, _, rfl, by decide⟩, rfl, _, rfl, by decide⟩

/-- ErrorsArePrecise: an offer while ERR = 1; INIT, then a beat in error, then commands that are no INIT. -/
theorem witness_ErrorsArePrecise :
    (∃ s : State, s.rstN = true ∧ s.offered = some ⟨0x02, 0⟩ ∧ s.arch.err = true) ∧
    (∃ (before rest : List Beat) (b : Beat) (e : CmdError) (s t : State), t = retireAll before s ∧ t.arch.err = false ∧
      execBeat b t = .next (t.mapArch (raiseCmdError e)) ∧ (∀ c ∈ rest, c.ctl ≠ 0x01) ∧ before ≠ [] ∧ rest ≠ []) :=
  ⟨⟨{ errorAt 0 0 .idle 4 with offered := some ⟨0x02, 0⟩ }, rfl, rfl, rfl⟩,
    ⟨[⟨0x01, 7⟩], [⟨0x02, 0⟩, ⟨0x04, 0⟩], ⟨0x05, 0⟩, .illegalOp, State.reset, retireAll [⟨0x01, 7⟩] State.reset, rfl, by decide, rfl,
      by decide, nofun, nofun⟩⟩

/-- ErrorStateLeftOnlyByInitOrReset: the error stays (a dropped beat), is left by INIT, is left by reset. -/
theorem witness_ErrorStateLeftOnlyByInitOrReset :
    (∃ s t : State, s.live = true ∧ s.arch.err = true ∧ step s = .next t ∧ t.live = true ∧ t.arch.err = true) ∧
    (∃ s t : State, s.live = true ∧ s.arch.err = true ∧ step s = .next t ∧ t.live = true ∧ t.arch.err = false ∧
      s.pending ≠ []) ∧
    (∃ s t : State, s.live = true ∧ s.arch.err = true ∧ step s = .next t ∧ t.live = true ∧ t.arch.err = false ∧
      s.schedule.head? = some .assertReset) :=
  ⟨⟨{ errorAt 0 0 .idle 4 with pending := [⟨0x02, 0⟩] }, _, rfl, rfl, rfl, by decide, by decide⟩,
    ⟨{ errorAt 0 0 .idle 4 with pending := [⟨0x01, 7⟩] }, _, rfl, rfl, rfl, by decide, by decide, nofun⟩,
    ⟨{ errorAt 0 0 .idle 4 with schedule := [.assertReset] }, _, rfl, rfl, rfl, by decide, by decide, rfl⟩⟩

/-- ResultWrittenOnlyByFinalAndReset: RESULT changed by a FINAL, and by reset. -/
theorem witness_ResultWrittenOnlyByFinalAndReset :
    (∃ s t : State, s.live = true ∧ step s = .next t ∧ t.live = true ∧ t.arch.result ≠ s.arch.result ∧ s.pending = [⟨0x04, 0⟩]) ∧
    (∃ s t : State, s.live = true ∧ step s = .next t ∧ t.live = true ∧ t.arch.result ≠ s.arch.result ∧
      s.schedule = [.assertReset]) :=
  ⟨⟨{ stateAt 1 0 .absorb with pending := [⟨0x04, 0⟩] }, _, rfl, rfl, by decide, by decide, rfl⟩,
    ⟨{ (stateAt 1 0 .done).mapArch (fun a => { a with result := 1 }) with schedule := [.assertReset] }, _, rfl, rfl, by decide,
      by decide, rfl⟩⟩

/-- PhaseMovesInTheSourceOrder: a move to each phase. -/
theorem witness_PhaseMovesInTheSourceOrder :
    (∃ s t : State, s.live = true ∧ step s = .next t ∧ t.live = true ∧ t.arch.phase ≠ s.arch.phase ∧ t.arch.phase = .idle) ∧
    (∃ s t : State, s.live = true ∧ step s = .next t ∧ t.live = true ∧ t.arch.phase ≠ s.arch.phase ∧ t.arch.phase = .absorb) ∧
    (∃ s t : State, s.live = true ∧ step s = .next t ∧ t.live = true ∧ t.arch.phase ≠ s.arch.phase ∧ t.arch.phase = .tailed) ∧
    (∃ s t : State, s.live = true ∧ step s = .next t ∧ t.live = true ∧ t.arch.phase ≠ s.arch.phase ∧ t.arch.phase = .done) :=
  ⟨⟨{ stateAt 1 0 .absorb with schedule := [.assertReset] }, _, rfl, rfl, by decide, by decide, by decide⟩,
    ⟨{ State.reset with pending := [⟨0x01, 7⟩] }, _, rfl, rfl, by decide, by decide, by decide⟩,
    ⟨{ stateAt 1 0 .absorb with pending := [⟨0x1b, 7⟩] }, _, rfl, rfl, by decide, by decide, by decide⟩,
    ⟨{ stateAt 1 0 .absorb with pending := [⟨0x04, 0⟩] }, _, rfl, rfl, by decide, by decide, by decide⟩⟩

/-- ResetValuesOfEveryElement: the Reset step from a state with an error and a pending command. -/
theorem witness_ResetValuesOfEveryElement : ∃ t, resetStep { errorAt 3 1 .tailed 4 with pending := [⟨0x02, 0⟩] } = .next t := ⟨_, rfl⟩

/-- The invariant holds at reset. -/
theorem reset_inv : State.reset.Inv := by decide

/-- StepKeepsTheInvariant: states with the invariant that step: out of reset, and within it. -/
theorem witness_StepKeepsTheInvariant :
    (∃ s t : State, s.Inv ∧ step s = .next t ∧ s.live = true ∧ s.arch.phase = .absorb ∧ s.pending ≠ []) ∧
    (∃ s t : State, s.Inv ∧ step s = .next t ∧ s.live = true ∧ s.rstN = false) :=
  ⟨⟨{ stateAt 1 4 .absorb with pending := [⟨0x1b, 7⟩] }, _, by decide, rfl, rfl, rfl, nofun⟩,
    ⟨{ State.reset with rstN := false, schedule := [.releaseReset] }, _, by decide, rfl, rfl, rfl⟩⟩

/-- ReadSelectMap: a settled state; each of the four selects is a clause. -/
theorem witness_ReadSelectMap : (stateAt 1 4 .absorb).rstN = true ∧ (stateAt 1 4 .absorb).pending = [] ∧
    ((0 : BitVec 2) = 0 ∧ (3 : BitVec 2) = 3) := by decide

/-- StatusReadIsTheFields: settled and not, a reserved bit, and the example's state. -/
theorem witness_StatusReadIsTheFields :
    (State.reset.rstN = true ∧ State.reset.pending = []) ∧ (7 ≤ 7 ∧ 7 ≤ 31) ∧
    ((errorAt 1 1 .tailed 4).rstN = true ∧ (errorAt 1 1 .tailed 4).pending = [] ∧ (errorAt 1 1 .tailed 4).arch.phase = .tailed ∧
      (errorAt 1 1 .tailed 4).arch.err = true ∧ (errorAt 1 1 .tailed 4).arch.ecode = 4) := by decide

/-- UnsettledReadAnswersAnyWord, UnsettledReadsUseFreshFreeValues, BusyIsExact: settled, unsettled, and during reset. -/
theorem witness_UnsettledReadAnswersAnyWord : (State.reset.rstN = true ∧ State.reset.pending = []) ∧
    (∃ s : State, s.rstN = true ∧ s.pending ≠ []) :=
  ⟨by decide, { stateAt 1 0 .absorb with pending := [⟨0x04, 0⟩] }, rfl, nofun⟩
theorem witness_UnsettledReadsUseFreshFreeValues : (∃ s : State, s.rstN = true ∧ s.pending ≠ [] ∧ (0 : BitVec 2) ≠ 1) ∧
    (∃ s : State, s.rstN = false ∧ s.pending = []) :=
  ⟨⟨{ stateAt 1 0 .absorb with pending := [⟨0x04, 0⟩] }, rfl, nofun, by decide⟩, ⟨{ State.reset with rstN := false }, rfl, rfl⟩⟩
theorem witness_BusyIsExact : ∃ s : State, s.rstN = true ∧ s.pending = [⟨0x04, 0⟩] :=
  ⟨{ stateAt 1 0 .absorb with pending := [⟨0x04, 0⟩] }, rfl, rfl⟩

/-- ReadsHaveNoSideEffect: a settled state for the repeated read, and ABSORB with ERR = 0 for the two BLOCKs. -/
theorem witness_ReadsHaveNoSideEffect : (stateAt 1 0 .absorb).rstN = true ∧ (stateAt 1 0 .absorb).pending = [] ∧
    (stateAt 1 0 .absorb).arch.err = false ∧ (stateAt 1 0 .absorb).arch.phase = .absorb := by decide

/-- SettledReadsAreStable: a read of STATUS with BUSY = 0; quiet events that run; reads. -/
theorem witness_SettledReadsAreStable :
    (State.reset.rstN = true ∧ ∃ t, readStep 1 State.reset = .next t ∧ t.rdData.getLsbD 6 = false) ∧
    (∃ (es rest : List Event) (s t : State), s.Settled ∧ s.schedule = es ++ rest ∧ (∀ e ∈ es, e.isQuiet = true) ∧
      runSteps es.length s = .next t ∧ es.length = 3) ∧
    (∃ (es rest : List Event) (s : State), s.Settled ∧ s.schedule = es ++ rest ∧ (∀ e ∈ es, e.isRead = true) ∧ es.length = 2) :=
  ⟨⟨rfl, _, rfl, by decide⟩,
    ⟨[.read 1, .offer ⟨0x01, 7⟩, .read 0], [.edge], scheduled [.read 1, .offer ⟨0x01, 7⟩, .read 0, .edge], _, by decide, rfl,
      by decide, rfl, rfl⟩,
    ⟨[.read 1, .read 0], [], scheduled [.read 1, .read 0], by decide, rfl, by decide, rfl⟩⟩

/-- ResetStepSetsEveryElement: a reset from an error with a command pending, and a state during reset. -/
theorem witness_ResetStepSetsEveryElement :
    (∃ (s : State) (es : List Event), s.schedule = .assertReset :: es ∧ s.arch.err = true ∧ s.pending ≠ []) ∧
    (∃ s : State, s.rstN = false ∧ s.offered = some ⟨0x01, 7⟩) :=
  ⟨⟨{ errorAt 3 1 .tailed 4 with pending := [⟨0x02, 0⟩], schedule := [.assertReset] }, [], rfl, rfl, nofun⟩,
    ⟨{ State.reset with rstN := false, offered := some ⟨0x01, 7⟩ }, rfl, rfl⟩⟩

/-- ReadsDuringAndAfterReset. -/
theorem witness_ReadsDuringAndAfterReset : (∃ s : State, s.rstN = false) ∧
    (∃ (s : State) (es : List Event), s.schedule = .assertReset :: .releaseReset :: .read 3 :: es) :=
  ⟨⟨{ State.reset with rstN := false }, rfl⟩, ⟨scheduled [.assertReset, .releaseReset, .read 3], [], rfl⟩⟩

/-- AcceptAppendsTheOffer, both clauses. -/
theorem witness_AcceptAppendsTheOffer : ∃ (b : Beat) (es : List Event) (s : State), s.live = true ∧ s.rstN = true ∧
    s.offered = some b ∧ s.schedule = .edge :: es :=
  ⟨⟨0x01, 7⟩, [], { State.reset with offered := some ⟨0x01, 7⟩, schedule := [.edge] }, rfl, rfl, rfl, rfl⟩

/-- OffersStandUntilAcceptedOrWithdrawn: nothing offered, another offered, an offer during reset; with an offer, a retirement, a
read, a reset, its release, a loss of power; and steps that keep, withdraw and accept an offer. -/
theorem witness_OffersStandUntilAcceptedOrWithdrawn : State.reset.offered = none ∧
    (∃ (b b' : Beat) (s : State), s.offered = some b' ∧ b' ≠ b) ∧
    (∃ (b : Beat) (s : State), s.rstN = false ∧ s.offered = some b) ∧
    (∃ t, retireStep { State.reset with pending := [⟨0x01, 7⟩], offered := some ⟨0x04, 0⟩ } = .next t) ∧
    (∃ t, readStep 0 { State.reset with offered := some ⟨0x04, 0⟩ } = .next t) ∧
    (∃ t, resetStep { State.reset with offered := some ⟨0x04, 0⟩ } = .next t) ∧
    (∃ t, releaseStep { State.reset with offered := some ⟨0x04, 0⟩, rstN := false } = .next t) ∧
    (∃ t, powerLossStep { State.reset with offered := some ⟨0x04, 0⟩ } = .next t) ∧
    (∃ s t : State, s.offered = some ⟨0x04, 0⟩ ∧ step s = .next t ∧ t.offered = some ⟨0x04, 0⟩) ∧
    (∃ s t : State, s.offered = some ⟨0x04, 0⟩ ∧ step s = .next t ∧ s.schedule.head? = some .withdraw) ∧
    (∃ s t : State, s.offered = some ⟨0x04, 0⟩ ∧ step s = .next t ∧ acceptedBy s = some ⟨0x04, 0⟩) :=
  ⟨rfl, ⟨⟨0x01, 8⟩, ⟨0x01, 7⟩, { State.reset with offered := some ⟨0x01, 7⟩ }, rfl, by decide⟩,
    ⟨⟨0x01, 7⟩, { State.reset with rstN := false, offered := some ⟨0x01, 7⟩ }, rfl, rfl⟩,
    ⟨_, rfl⟩, ⟨_, rfl⟩, ⟨_, rfl⟩, ⟨_, rfl⟩, ⟨_, rfl⟩,
    ⟨{ State.reset with offered := some ⟨0x04, 0⟩, schedule := [.read 0] }, _, rfl, rfl, rfl⟩,
    ⟨{ State.reset with offered := some ⟨0x04, 0⟩, schedule := [.withdraw] }, _, rfl, rfl, rfl⟩,
    ⟨{ State.reset with offered := some ⟨0x04, 0⟩, schedule := [.edge] }, _, rfl, rfl, rfl⟩⟩

/-- RetireIsOneAtATimeInOrder: a retirement with a second command behind it, a read, an acceptance and a reset. -/
theorem witness_RetireIsOneAtATimeInOrder :
    (∃ (b : Beat) (rest : List Beat) (s t : State), s.pending = b :: rest ∧ rest ≠ [] ∧ s.live = true ∧ step s = .next t ∧
      t.live = true) ∧
    (∃ s t : State, s.live = true ∧ step s = .next t ∧ t.live = true ∧ s.schedule = [.read 0]) ∧
    (∃ s t : State, s.live = true ∧ step s = .next t ∧ t.live = true ∧ acceptedBy s = some ⟨0x01, 7⟩) ∧
    (∃ s t : State, s.live = true ∧ step s = .next t ∧ t.live = true ∧ s.schedule = [.assertReset]) :=
  ⟨⟨⟨0x01, 7⟩, [⟨0x04, 0⟩], { State.reset with pending := [⟨0x01, 7⟩, ⟨0x04, 0⟩] }, _, rfl, nofun, rfl, rfl, by decide⟩,
    ⟨scheduled [.read 0], _, rfl, rfl, rfl, rfl⟩,
    ⟨{ State.reset with offered := some ⟨0x01, 7⟩, schedule := [.edge] }, _, rfl, rfl, rfl, rfl⟩,
    ⟨scheduled [.assertReset], _, rfl, rfl, rfl, rfl⟩⟩

/-- StepRunsTheDecodedCommand: scheduled, by itself, and from a table word. -/
theorem witness_StepRunsTheDecodedCommand :
    (∃ (b : Beat) (i : Instr) (rest : List Beat) (es : List Event) (s : State), s.live = true ∧ s.pending = b :: rest ∧
      decode b = .ok i ∧ s.schedule = .retire :: es) ∧
    (∃ (b : Beat) (i : Instr) (rest : List Beat) (s : State), s.live = true ∧ s.pending = b :: rest ∧ decode b = .ok i ∧
      s.schedule = []) ∧
    decodeTableWord 40 0x0200000000 = some (.block 0) :=
  ⟨⟨⟨0x01, 7⟩, .init 7, [], [], { State.reset with pending := [⟨0x01, 7⟩], schedule := [.retire] }, rfl, rfl, (decode_legal 7).2.1, rfl⟩,
    ⟨⟨0x01, 7⟩, .init 7, [], { State.reset with pending := [⟨0x01, 7⟩] }, rfl, rfl, (decode_legal 7).2.1, rfl⟩, by decide⟩

/-- RetirementMomentIsInvisible: a step that retires one of two commands, and a state with nothing pending. -/
theorem witness_RetirementMomentIsInvisible :
    (∃ s t : State, s.live = true ∧ step s = .next t ∧ t.pending ≠ s.pending) ∧ State.reset.pending = [] :=
  ⟨⟨{ State.reset with pending := [⟨0x01, 7⟩, ⟨0x04, 0⟩] }, _, rfl, rfl, by decide⟩, rfl⟩

/-- EveryPendingCommandRetires: two commands pending, nothing scheduled. -/
theorem witness_EveryPendingCommandRetires : ∃ s : State, s.live = true ∧ s.schedule = [] ∧ s.pending.length = 2 :=
  ⟨{ State.reset with pending := [⟨0x01, 7⟩, ⟨0x04, 0⟩] }, rfl, rfl, rfl⟩

/-- OneResetAfterPowerUp, each clause. -/
theorem witness_OneResetAfterPowerUp :
    (∃ s : State, s.live = false ∧ s.schedule.head? ≠ some .assertReset ∧ s.schedule.head? ≠ some .powerLoss) ∧
    (∃ (s : State) (es : List Event), s.schedule = .powerLoss :: .assertReset :: .releaseReset :: es) :=
  ⟨⟨{ State.reset with live := false, schedule := [.retire] }, rfl, by decide, by decide⟩,
    ⟨scheduled [.powerLoss, .assertReset, .releaseReset], [], rfl⟩⟩

end Sys2Proof.Tests
end

section
/-! Proofs of the family 10_state.md: the constants of the datapath, the reset values, the frame of every command, and what a step
can do to RESULT, to PHASE and to the invariant. -/

namespace Sys2Proof.Machine.StateProofs

open Sys2Proof Sys2Proof.Machine

/-! ### What a command and a beat keep of the registers -/

section

variable {f : Arch → Arch} {allowed : Phase → Bool} {a : Arch} {b : Beat}

/-- A part `g` of the registers that both the effect and the error action keep is kept by the whole command. -/
theorem sequenced_keeps {α : Type} (g : Arch → α) (hf : g (f a) = g a) (hr : g (raiseCmdError .sequence a) = g a) :
    g (sequenced allowed f a) = g a := by
  rcases sequenced_cases allowed f a with ⟨-, h⟩ | ⟨-, -, h⟩ | ⟨-, -, h⟩ <;> rw [h]
  · exact hf
  · exact hr

/-- A command whose effect keeps ERR and ECODE changes them by the error action SEQUENCE only (60_exceptions.md R84, R88). -/
theorem sequenced_error_frame (hf : (f a).err = a.err ∧ (f a).ecode = a.ecode) :
    ((sequenced allowed f a).err = a.err ∧ (sequenced allowed f a).ecode = a.ecode) ∨
      (a.err = false ∧ sequenced allowed f a = { a with err := true, ecode := 4 }) := by
  rcases sequenced_cases allowed f a with ⟨-, h⟩ | ⟨-, -, h⟩ | ⟨h0, -, h⟩ <;> rw [h]
  · exact .inl ⟨rfl, rfl⟩
  · exact .inl hf
  · exact .inr ⟨h0, rfl⟩

/-- A beat changes RESULT only as a FINAL that is performed (10_state.md R15). -/
theorem final_of_beatEffect_result_ne (h : (beatEffect b a).result ≠ a.result) :
    b.ctl = 0x04 ∧ beatEffect b a = finalEffect a := by
  rcases beatEffect_cases b a with
    e | ⟨_, -, e⟩ | ⟨-, e⟩ | ⟨-, -, -, e⟩ | ⟨_, -, -, -, e⟩ | ⟨hc, -, -, e⟩
  case inr.inr.inr.inr.inr => exact ⟨hc, e⟩
  all_goals simp [e] at h

/-- A beat that enters TAILED carries a legal control byte of TAIL (30_encoding.md R42). -/
theorem tail_ctl_of_beatEffect_enters_tailed (hp : a.phase ≠ .tailed) (h : (beatEffect b a).phase = .tailed) :
    b.ctl = 0x0b ∨ b.ctl = 0x13 ∨ b.ctl = 0x1b := by
  unfold beatEffect at h
  cases hd : decode b with
  | error e =>
    have hk : (unlessErr (raiseCmdError e) a).phase = a.phase := by unfold unlessErr; split <;> rfl
    simp only [hd, hk] at h
    exact absurd h hp
  | ok i =>
    simp only [hd] at h
    rcases decode_ok_cases hd with
      ⟨-, rfl⟩ | ⟨-, rfl⟩ | ⟨-, rfl⟩ | ⟨hc, -⟩ | ⟨hc, -⟩ | ⟨hc, -⟩ | ⟨-, rfl⟩
    · rw [commandEffect_nop] at h
      exact absurd h hp
    · cases h
    · exact absurd ((sequenced_keeps Arch.phase rfl rfl).symm.trans h) hp
    · exact .inl hc
    · exact .inr (.inl hc)
    · exact .inr (.inr hc)
    · rcases sequenced_cases inAbsorbOrTailed finalEffect a with ⟨-, e⟩ | ⟨-, -, e⟩ | ⟨-, -, e⟩ <;>
        simp [commandEffect, e, hp] at h

/-- Every move of PHASE by a beat, with the control byte that makes it (10_state.md R14). -/
theorem beatEffect_phase_moves (h : (beatEffect b a).phase ≠ a.phase) :
    (b.ctl = 0x01 ∧ (beatEffect b a).phase = .absorb) ∨
    ((b.ctl = 0x0b ∨ b.ctl = 0x13 ∨ b.ctl = 0x1b) ∧ a.phase = .absorb ∧ (beatEffect b a).phase = .tailed) ∨
    (b.ctl = 0x04 ∧ (a.phase = .absorb ∨ a.phase = .tailed) ∧ (beatEffect b a).phase = .done) := by
  rcases beatEffect_cases b a with
    e | ⟨_, -, e⟩ | ⟨hc, e⟩ | ⟨-, -, -, e⟩ | ⟨_, -, -, hp, e⟩ | ⟨hc, -, hp, e⟩
  · exact absurd (congrArg Arch.phase e) h
  · exact absurd (congrArg Arch.phase e) h
  · exact .inl ⟨hc, congrArg Arch.phase e⟩
  · exact absurd (congrArg Arch.phase e) h
  · have ht : (beatEffect b a).phase = .tailed := congrArg Arch.phase e
    exact .inr (.inl ⟨tail_ctl_of_beatEffect_enters_tailed (by simp [hp]) ht, hp, ht⟩)
  · exact .inr (.inr ⟨hc, hp, congrArg Arch.phase e⟩)

end

/-! ### The invariant of the registers under each effect -/

section

variable {a : Arch}

theorem archInv_reset : Arch.reset.Inv := by decide

theorem archInv_raiseCmdError (e : CmdError) (h : a.Inv) : (raiseCmdError e a).Inv := by
  obtain ⟨-, -, hphases⟩ := h
  exact ⟨by simp, errorCode_le e, hphases⟩

theorem archInv_initEffect (seed : Word) (a : Arch) : (initEffect seed a).Inv := by
  simp [Arch.Inv]

/-- A block keeps the number of absorbed bytes a multiple of 4, through the wrap modulo 2^32 too (41_commands.md R70). -/
theorem archInv_blockEffect (k : Word) (h : a.Inv) (hp : a.phase = .absorb) : (blockEffect k a).Inv := by
  obtain ⟨herr, hcode, -, hlen, -, -⟩ := h
  have hlen' : (a.len + 4).toNat % 4 = 0 := by
    have := hlen hp
    have h4 : (4 : Word).toNat = 4 := rfl
    rw [BitVec.toNat_add, h4]
    omega
  exact ⟨herr, hcode, by simp [hp], fun _ => hlen', by simp [hp], by simp [hp]⟩

/-- A tail of 1 to 3 bytes after whole blocks leaves a number of bytes that is no multiple of 4 (41_commands.md R71). -/
theorem archInv_tailEffect {n : BitVec 2} (t : Word) (hn : n ≠ 0) (h : a.Inv) (hp : a.phase = .absorb) :
    (tailEffect n t a).Inv := by
  obtain ⟨herr, hcode, -, hlen, -, -⟩ := h
  have hlen' : (a.len + n.setWidth 32).toNat % 4 ≠ 0 := by
    have := hlen hp
    have := n.isLt
    have : n.toNat ≠ 0 := fun h0 => hn (BitVec.eq_of_toNat_eq h0)
    rw [BitVec.toNat_add, BitVec.toNat_setWidth]
    omega
  exact ⟨herr, hcode, nofun, nofun, fun _ => hlen', nofun⟩

theorem archInv_finalEffect (h : a.Inv) : (finalEffect a).Inv := by
  obtain ⟨herr, hcode, -⟩ := h
  exact ⟨herr, hcode, nofun, nofun, nofun, fun _ => rfl⟩

/-- Every beat, dropped, in error or performed, keeps the invariant of the registers. -/
theorem archInv_beatEffect (b : Beat) (h : a.Inv) : (beatEffect b a).Inv := by
  rcases beatEffect_cases b a with
    e | ⟨_, -, e⟩ | ⟨-, e⟩ | ⟨-, -, hp, e⟩ | ⟨_, hn, -, hp, e⟩ | ⟨-, -, -, e⟩ <;> rw [e]
  · exact h
  · exact archInv_raiseCmdError _ h
  · exact archInv_initEffect _ a
  · exact archInv_blockEffect _ h hp
  · exact archInv_tailEffect _ hn h hp
  · exact archInv_finalEffect h

end

/-! ### What a step can do to the registers -/

section

variable {s t : State}

/-- A live step changes the registers only as a reset or as the retirement of the oldest pending command
(70_reset_and_hazards.md R98, R102). -/
theorem reset_or_retire_of_arch_ne (hl : s.live = true) (h : step s = .next t) (ht : t.live = true) (hne : t.arch ≠ s.arch) :
    (s.schedule.head? = some .assertReset ∧ t.arch = Arch.reset) ∨
    (∃ b rest, s.pending = b :: rest ∧ (s.schedule = [] ∨ s.schedule.head? = some .retire) ∧
      t.arch = beatEffect b s.arch) := by
  rcases step_next hl h with
    ⟨harch, -⟩ | ⟨_, -, -, -, rfl⟩ | ⟨b, rest, hp, hs, rfl⟩ | ⟨hs, rfl⟩ | ⟨-, hdead⟩
  · exact absurd harch hne
  · exact absurd rfl hne
  · exact .inr ⟨b, rest, hp, hs, rfl⟩
  · exact .inl ⟨hs, rfl⟩
  · simp [hdead] at ht

/-- Before the first reset after power-up only a reset makes the block live (60_exceptions.md R97, 93 U4). -/
theorem reset_of_step_makes_live (hl : s.live = false) (h : step s = .next t) (ht : t.live = true) :
    t.arch = Arch.reset ∧ t.pending = [] := by
  cases hs : s.schedule with
  | nil => simp [step, hs, quietStep, hl] at h
  | cons e rest =>
    simp only [step, hs, eventStep, hl, Bool.false_eq_true, if_false] at h
    cases e with
    | assertReset => cases h; exact ⟨rfl, rfl⟩
    | powerLoss => cases h; cases ht
    | _ => cases h

/-- The invariant over one step of a live machine. A retirement happens out of reset: during reset nothing is pending. -/
theorem inv_of_live_step (hl : s.live = true) (hi : s.Inv) (h : step s = .next t) : t.Inv := by
  obtain ⟨harch, hreset⟩ := hi hl
  rcases step_next hl h with
    ⟨ha, hp, -, hr⟩ | ⟨_, hr, -, -, rfl⟩ | ⟨b, rest, hp, -, rfl⟩ | ⟨-, rfl⟩ | ⟨-, hdead⟩
  · refine fun _ => ⟨ha ▸ harch, fun hr0 => ?_⟩
    rcases hr with hr | ⟨-, hr⟩
    · rw [ha, hp]
      exact hreset (hr ▸ hr0)
    · simp [hr] at hr0
  · exact fun _ => ⟨harch, fun hr0 => by simp [hr] at hr0⟩
  · refine fun _ => ⟨archInv_beatEffect b harch, fun hr0 => ?_⟩
    obtain ⟨-, hnone⟩ := hreset hr0
    cases hp.symm.trans hnone
  · exact fun _ => ⟨archInv_reset, fun _ => ⟨rfl, rfl⟩⟩
  · exact fun ht => by simp [hdead] at ht

end

/-- STATUS[1:0] is PHASE (10_state.md R14, R16). -/
theorem statusWord_phase_bits (busyBit : Bool) (a : Arch) : (statusWord busyBit a).extractLsb' 0 2 = phaseBits a.phase := by
  unfold statusWord
  generalize phaseBits a.phase = p
  generalize a.ecode = c
  generalize a.err = e
  revert busyBit p c e
  decide

/-! ### The obligations -/

/-- Settles O44: a live machine keeps the invariant whatever the step does (`inv_of_live_step`), and one that is not live yet becomes
so only by a reset. -/
theorem stepKeepsTheInvariant : Obligations.StepKeepsTheInvariant := by
  intro s t hi h
  cases hl : s.live with
  | true => exact inv_of_live_step hl hi h
  | false =>
    intro ht
    obtain ⟨ha, hp⟩ := reset_of_step_makes_live hl h ht
    exact ⟨ha ▸ archInv_reset, fun _ => ⟨ha, hp⟩⟩

/-- Settles O31, command by command: BLOCK, TAIL and FINAL keep what both their effect and the error action keep. -/
theorem commandsChangeOnlyTheirRegisters : Obligations.CommandsChangeOnlyTheirRegisters := by
  intro i s t h
  rw [exec_eq] at h
  cases h
  refine ⟨rfl, ?_⟩
  simp only [State.mapArch_arch]
  cases i with
  | nop x => simp [commandEffect_nop]
  | init seed => simp [commandEffect]
  | block k =>
    exact ⟨fun _ => sequenced_keeps Arch.result rfl rfl, by simp, fun _ => sequenced_keeps Arch.phase rfl rfl, by simp,
      fun _ => sequenced_error_frame ⟨rfl, rfl⟩⟩
  | tail n x =>
    exact ⟨fun _ => sequenced_keeps Arch.result rfl rfl, by simp, by simp, by simp,
      fun _ => sequenced_error_frame ⟨rfl, rfl⟩⟩
  | final x =>
    exact ⟨fun hx => absurd rfl (hx x), fun _ => sequenced_keeps Arch.len rfl rfl, by simp, by simp,
      fun _ => sequenced_error_frame ⟨rfl, rfl⟩⟩

/-- Settles O40: the registers change by a reset or a retirement only, and of the commands only a FINAL writes RESULT. -/
theorem resultWrittenOnlyByFinalAndReset : Obligations.ResultWrittenOnlyByFinalAndReset := by
  refine ⟨fun s t hl h ht hne => ?_, settledValue_zero, rfl⟩
  rcases reset_or_retire_of_arch_ne hl h ht (ne_of_apply_ne Arch.result hne) with ⟨hs, -⟩ | ⟨⟨ctl, x⟩, rest, hp, hs, ha⟩
  · exact .inl hs
  · rw [ha] at hne
    obtain ⟨rfl, he⟩ := final_of_beatEffect_result_ne hne
    rw [ha, he]
    exact .inr ⟨x, rest, hp, hs, finalMix_eq _ _, rfl⟩

/-- Settles O41: a reset leads to IDLE, and each move by a retirement is one of `beatEffect_phase_moves`. -/
theorem phaseMovesInTheSourceOrder : Obligations.PhaseMovesInTheSourceOrder := by
  refine ⟨rfl, rfl, rfl, rfl, rfl, statusWord_phase_bits, fun s t hl h ht hne => ?_⟩
  rcases reset_or_retire_of_arch_ne hl h ht (ne_of_apply_ne Arch.phase hne) with ⟨hs, ha⟩ | ⟨⟨ctl, x⟩, rest, hp, -, ha⟩
  · simp [ha, hs, Arch.reset]
  · rw [ha] at hne ⊢
    rcases beatEffect_phase_moves hne with ⟨rfl, hm⟩ | ⟨hc, ha0, hm⟩ | ⟨rfl, ha0, hm⟩
    · rw [hm]
      exact ⟨nofun, fun _ => ⟨x, rest, hp⟩, nofun, nofun⟩
    · rw [hm]
      refine ⟨nofun, nofun, fun _ => ⟨ha0, x, rest, ?_⟩, nofun⟩
      rcases hc with rfl | rfl | rfl
      · exact .inl hp
      · exact .inr (.inl hp)
      · exact .inr (.inr hp)
    · rw [hm]
      exact ⟨nofun, nofun, nofun, fun _ => ⟨ha0, x, rest, hp⟩⟩

/-- Settles O1: each constant and each unit by its definition. -/
theorem constantTableAndItsUsers : Obligations.ConstantTableAndItsUsers :=
  ⟨rfl, rfl, rfl, rfl, rfl, rfl, rfl, rfl, rfl, rfl, rfl, fun _ => rfl, fun _ _ => rfl, fun _ => rfl⟩

/-- Settles O42: the reset state's fields, and the state a Reset step answers. -/
theorem resetValuesOfEveryElement : Obligations.ResetValuesOfEveryElement := by
  refine ⟨rfl, rfl, rfl, rfl, rfl, rfl, rfl, rfl, rfl, fun s t h => ?_⟩
  cases h
  exact ⟨rfl, rfl, rfl⟩

/-- Settles O43: the reset registers meet `Arch.Inv`, and `rst_n` is back at 1. -/
theorem invariantHoldsAtReset : Obligations.InvariantHoldsAtReset := fun _ => ⟨archInv_reset, nofun⟩

end Sys2Proof.Machine.StateProofs
end

section
/-! Proofs of the family 20_memory.md: the byte lanes of a word, the select map and the frame of the read port, and the registers as
they will be once the pending commands have retired. -/

namespace Sys2Proof.Machine.MemoryProofs

open Sys2Proof Sys2Proof.Machine

/-! ### The lanes of a word -/

section

variable (b b0 b1 b2 b3 : Byte) (v w : Word)

/-- Bit j of lane i is bit 8i+j of the word (20_memory.md R28). -/
theorem getLsbD_lane (i j : Nat) : (lane w i).getLsbD j = (decide (j < 8) && w.getLsbD (8 * i + j)) :=
  BitVec.getLsbD_extractLsb' ..

theorem lane_or (i : Nat) : lane (v ||| w) i = lane v i ||| lane w i := BitVec.extractLsb'_or ..

theorem getLsbD_atLane (i j : Nat) :
    (atLane b i).getLsbD j = (decide (j < 32) && (!decide (j < 8 * i) && b.getLsbD (j - 8 * i))) := by
  rw [atLane, BitVec.getLsbD_shiftLeft, BitVec.getLsbD_setWidth]
  rcases Nat.lt_or_ge j 32 with hj | hj
  · simp [hj, show j - 8 * i < 32 by omega]
  · simp [Nat.not_lt.2 hj]

/-- A byte placed in a lane is read back there. -/
theorem lane_atLane_same {i : Nat} (hi : i < 4) : lane (atLane b i) i = b := by
  refine BitVec.eq_of_getLsbD_eq fun j hj => ?_
  rw [getLsbD_lane, getLsbD_atLane]
  simp [hj, show 8 * i + j < 32 by omega]

/-- A byte placed in a lane leaves every other lane 0. -/
theorem lane_atLane_of_ne {i k : Nat} (h : i ≠ k) : lane (atLane b i) k = 0 := by
  refine BitVec.eq_of_getLsbD_eq fun j hj => ?_
  rw [getLsbD_lane, getLsbD_atLane]
  rcases Nat.lt_or_gt_of_ne h with hlt | hgt
  · simp [BitVec.getLsbD_of_ge b (8 * k + j - 8 * i) (by omega)]
  · simp [show 8 * k + j < 8 * i by omega]

/-- The lanes of a little-endian word are its bytes in order (00_scope.md R9). -/
theorem lanes_bytesLe :
    lane (bytesLe b0 b1 b2 b3) 0 = b0 ∧ lane (bytesLe b0 b1 b2 b3) 1 = b1 ∧
    lane (bytesLe b0 b1 b2 b3) 2 = b2 ∧ lane (bytesLe b0 b1 b2 b3) 3 = b3 := by
  simp [bytesLe, lane_or, lane_atLane_same, lane_atLane_of_ne]

/-- The four lanes make up the whole word: bit j stands in lane j / 8. -/
theorem eq_of_lanes_eq {v w : Word} (h : ∀ i < 4, lane v i = lane w i) : v = w := by
  refine BitVec.eq_of_getLsbD_eq fun j hj => ?_
  have hbit := congrArg (BitVec.getLsbD · (j % 8)) (h (j / 8) (by omega))
  simpa only [getLsbD_lane, Nat.div_add_mod, show j % 8 < 8 by omega, decide_true, Bool.true_and] using hbit

end

/-! ### The read port and BLOCK -/

section

variable {sel : BitVec 2} {k : Word} {s t : State}

/-- Making the read again that has just answered `t` answers `t` once more, where the read is settled (20_memory.md R32). -/
theorem readStep_again (hr : s.rstN = true) (hp : s.pending = []) (h : readStep sel s = .next t) : readStep sel t = .next t := by
  rw [readStep_settled hr hp] at h
  cases h
  exact readStep_settled hr hp

/-- A BLOCK that is performed (41_commands.md R70). -/
theorem exec_block_of_absorb (he : s.arch.err = false) (hp : s.arch.phase = .absorb) :
    exec (.block k) s = .next { s with arch := blockEffect k s.arch } := by
  rw [exec_eq, State.mapArch, commandEffect, sequenced_of_allowed he ((inAbsorb_iff _).2 hp)]

end

/-! ### The registers once everything pending has retired -/

section

variable {s t : State}

/-- The settled registers are a function of the registers and the pending commands alone. -/
theorem settledArch_congr (ha : t.arch = s.arch) (hp : t.pending = s.pending) : settledArch t = settledArch s := by
  rw [settledArch_eq, settledArch_eq, ha, hp]

theorem settledArch_of_none_pending (hp : s.pending = []) : settledArch s = s.arch := by
  rw [settledArch_eq, hp, List.foldl_nil]

/-- A retirement only moves the oldest command from the pending ones into the registers (20_memory.md R35). -/
theorem settledArch_of_retired {b : Beat} (ha : t.arch = beatEffect b s.arch) (hp : s.pending = b :: t.pending) :
    settledArch t = settledArch s := by
  rw [settledArch_eq, settledArch_eq, ha, hp, List.foldl_cons]

/-- A command that joins the pending ones at the end takes its effect after all of them. -/
theorem settledArch_of_joined {b : Beat} (ha : t.arch = s.arch) (hp : t.pending = s.pending ++ [b]) :
    settledArch t = beatEffect b (settledArch s) := by
  rw [settledArch_eq, settledArch_eq, ha, hp, List.foldl_concat]

end

/-! ### The obligations -/

/-- Settles O58: the cases of `step_next`, each with what it does to the settled registers. -/
theorem retirementMomentIsInvisible : Obligations.RetirementMomentIsInvisible := by
  refine ⟨fun s t hl h => ?_, fun s => settledArch_of_none_pending⟩
  rcases step_next hl h with
    ⟨ha, hp, -⟩ | ⟨b, hr, ho, -, ht⟩ | ⟨b, rest, hp, -, rfl⟩ | ⟨hs, rfl⟩ | ⟨hs, hdead⟩
  · exact .inl (settledArch_congr ha hp)
  · have ha : t.arch = s.arch := by rw [ht]
    have hp : t.pending = s.pending ++ [b] := by rw [ht]
    refine .inr (.inl ⟨b, hr, ho, hp, ?_⟩)
    rw [execBeat_eq, settledArch_of_joined ha hp, State.mapArch]
  · exact .inl (settledArch_of_retired rfl hp)
  · exact .inr (.inr (.inl ⟨hs, settledArch_of_none_pending rfl⟩))
  · exact .inr (.inr (.inr ⟨hs, hdead⟩))

/-- Settles O11: a word is determined by its lanes, so `lanes_bytesLe` gives both directions. -/
theorem blockWordIsTheDataWord : Obligations.BlockWordIsTheDataWord := by
  refine ⟨lanes_bytesLe, fun w => eq_of_lanes_eq fun i hi => ?_⟩
  obtain ⟨h0, h1, h2, h3⟩ := lanes_bytesLe (lane w 0) (lane w 1) (lane w 2) (lane w 3)
  interval_cases i
  · exact h0
  · exact h1
  · exact h2
  · exact h3

/-- Settles O45: a settled read answers `settledValue`, which is the selected register; with nothing pending BUSY is 0. -/
theorem readSelectMap : Obligations.ReadSelectMap := by
  intro sel s hr hp
  have hbusy : busy s = false := by simp [busy, hp]
  rw [readStep_settled hr hp, hbusy]
  refine ⟨?_, ?_, ?_, ?_, by revert sel; decide⟩
  all_goals rintro rfl; rfl

/-- Settles O48: a read by `readStep_cases` and `readStep_again`; a second BLOCK finds ERR = 0 and ABSORB as the first did. -/
theorem readsHaveNoSideEffect : Obligations.ReadsHaveNoSideEffect := by
  constructor
  · intro sel s
    obtain ⟨v, n, h⟩ := readStep_cases sel s
    exact ⟨_, h, rfl, fun hr hp => readStep_again hr hp h⟩
  · intro k s he hp
    refine ⟨_, _, exec_block_of_absorb he hp, exec_block_of_absorb he hp, rfl, ?_⟩
    simp [BitVec.add_assoc]

end Sys2Proof.Machine.MemoryProofs
end

section
/-! Proofs of the family 30_encoding.md: the encoder and the decoder as inverses, the opcode map, the illegal beats, the ignored
bits, the assembler's expansions, and how long an offer stands. -/

namespace Sys2Proof.Machine.EncodingProofs

open Sys2Proof Sys2Proof.Machine

/-! ### The encoder and the decoder -/

section

variable {b : Beat} {i : Instr}

/-- An encoded command passes the decode check exactly where it is well formed, and its RSV is 0 (30_encoding.md R42, R44, R45). -/
theorem encodedControl (i : Instr) : Laws.EncodedControl.Statement i := by
  cases i with
  | nop x => exact Laws.EncodedControl.nop x
  | init seed => exact Laws.EncodedControl.init seed
  | block k => exact Laws.EncodedControl.block k
  | tail n t => exact Laws.EncodedControl.tail n t
  | final x => exact Laws.EncodedControl.final x

/-- OP of an encoded command selects the command again, and N and the data word are its operands (30_encoding.md R41, R42). -/
theorem selectInstr_encode (i : Instr) : selectInstr (encode i) = i := by
  cases i <;> simp [encode, selectInstr, ctlOp_mkCtl, ctlN_mkCtl]

theorem decode_encode (h : i.wellFormed = true) : decode (encode i) = .ok i := by
  obtain ⟨hcheck, -⟩ := encodedControl i
  exact (decode_ok_iff _ _).2 ⟨hcheck.2 h, selectInstr_encode i⟩

theorem encode_of_decode (h : decode b = .ok i) : encode i = b ∧ i.wellFormed = true := by
  obtain ⟨ctl, data⟩ := b
  rcases decode_ok_cases h with ⟨rfl, rfl⟩ | ⟨rfl, rfl⟩ | ⟨rfl, rfl⟩ | ⟨rfl, rfl⟩ | ⟨rfl, rfl⟩ | ⟨rfl, rfl⟩ | ⟨rfl, rfl⟩ <;>
    exact ⟨rfl, rfl⟩

/-- The beats that decode are the encodings of the well-formed commands, each of its own command. -/
theorem decode_ok_iff_encode : decode b = .ok i ↔ encode i = b ∧ i.wellFormed = true := by
  refine ⟨encode_of_decode, ?_⟩
  rintro ⟨rfl, h⟩
  exact decode_encode h

/-- The control byte alone says whether a beat carries a command (30_encoding.md R42). -/
theorem exists_decode_ok_iff : (∃ i, decode b = .ok i) ↔ decodeCheck b.ctl = none := by
  simp [decode_ok_iff]

/-- Only TAIL has a count to put into N (30_encoding.md R40, R41). -/
theorem ctlN_encode_of_ne_tail (h : ∀ n t, i ≠ .tail n t) : ctlN (encode i).ctl = 0 := by
  cases i with
  | tail n t => exact absurd rfl (h n t)
  | _ => exact ctlN_mkCtl 0 _

end

/-! ### The 40-bit beat -/

section

variable (b : Beat)

/-- The fields of the control byte stand 32 bits higher in the beat (30_encoding.md R40). -/
theorem extractLsb'_bits_of_ctl (start len : Nat) :
    b.bits.extractLsb' (32 + start) len = b.ctl.extractLsb' start len := by
  refine BitVec.eq_of_getLsbD_eq fun i hi => ?_
  rw [BitVec.getLsbD_extractLsb', BitVec.getLsbD_extractLsb', Beat.bits, BitVec.getLsbD_append,
    if_neg (by omega : ¬ 32 + start + i < 32), show 32 + start + i - 32 = start + i by omega]

theorem data_eq_extractLsb'_bits : b.data = b.bits.extractLsb' 0 32 := BitVec.extractLsb'_append_eq_right.symm

theorem bits_ofBits (v : BitVec 40) : (Beat.ofBits v).bits = v := BitVec.extractLsb'_append_extractLsb' (w := 8) (len := 32)

/-- A row of the opcode map tests the control byte alone (30_encoding.md R42). -/
theorem bits_and_mask_eq_iff (mask row : Byte) : b.bits &&& (mask ++ 0#32) = row ++ 0#32 ↔ b.ctl &&& mask = row := by
  rw [Beat.bits, BitVec.and_append, BitVec.and_zero, BitVec.append_left_inj]

theorem mk_data_eq_iff (ctl : Byte) : (⟨ctl, b.data⟩ : Beat) = b ↔ ctl = b.ctl :=
  ⟨congrArg Beat.ctl, by rintro rfl; rfl⟩

/-- The rows without an N field: the mask covers the whole control byte (30_encoding.md R42). -/
theorem decode_ok_iff_row {i : Instr} {row : Byte} (hwf : i.wellFormed = true) (hi : encode i = ⟨row, b.data⟩) :
    decode b = .ok i ↔ b.bits &&& 0xff00000000#40 = row ++ 0#32 := by
  rw [decode_ok_iff_encode, and_iff_left hwf, hi, mk_data_eq_iff,
    show 0xff00000000#40 = BitVec.allOnes 8 ++ 0#32 from rfl, bits_and_mask_eq_iff, BitVec.and_allOnes, eq_comm]

/-- TAIL's row leaves N free (30_encoding.md R41, R42). -/
theorem exists_mkCtl_tail_iff (ctl : Byte) :
    (∃ n : BitVec 2, n ≠ 0 ∧ mkCtl n 0b011#3 = ctl) ↔ ctl &&& 0xe7 = 0x03 ∧ ctlN ctl ≠ 0 := by
  revert ctl; decide

end

/-! ### The ignored bits and lanes -/

section

variable (n : BitVec 2) (t : Word)

/-- R58's loop keeps the low 8n bits (40_datapath.md R58). -/
theorem getLsbD_tailKeyLanes (m j : Nat) : (tailKeyLanes m t).getLsbD j = (decide (j < 8 * m) && t.getLsbD j) := by
  induction m with
  | zero => simp [tailKeyLanes]
  | succ m ih =>
    rw [tailKeyLanes, BitVec.getLsbD_or, ih, MemoryProofs.getLsbD_atLane, MemoryProofs.getLsbD_lane]
    rcases Nat.lt_or_ge j (8 * m) with hlow | hhigh
    · simp [hlow, show j < 8 * (m + 1) by omega]
    · rcases Nat.lt_or_ge j 32 with hj | hj
      · simp [hj, Nat.not_lt.2 hhigh, show 8 * m + (j - 8 * m) = j by omega, show j - 8 * m < 8 ↔ j < 8 * (m + 1) by omega]
      · simp [BitVec.getLsbD_of_ge t j hj, Nat.not_lt.2 hj]

theorem getLsbD_tailMask (j : Nat) : (tailMask n).getLsbD j = (decide (j < 32) && decide (j < 8 * n.toNat)) := by
  rw [tailMask, BitVec.getLsbD_ofNat, Nat.testBit_two_pow_sub_one]

/-- The tail key is the data word under `mask(n)` (30_encoding.md R41, 40_datapath.md R58). -/
theorem tailKey_eq_and_tailMask : tailKey n t = t &&& tailMask n := by
  refine BitVec.eq_of_getLsbD_eq fun j hj => ?_
  rw [tailKey, getLsbD_tailKeyLanes, BitVec.getLsbD_and, getLsbD_tailMask]
  simp [hj, Bool.and_comm]

/-- TAIL sees its data word under `mask(n)` only (30_encoding.md R46, 41_commands.md R71). -/
theorem tailEffect_congr {t t' : Word} (h : t &&& tailMask n = t' &&& tailMask n) : tailEffect n t = tailEffect n t' := by
  have hkey : tailKey n t = tailKey n t' := by rw [tailKey_eq_and_tailMask, tailKey_eq_and_tailMask, h]
  funext a
  rw [tailEffect, tailEffect, hkey]

end

/-- Every command but NOP changes the reset registers: INIT moves PHASE, the others are out of sequence there
(41_commands.md R69, 60_exceptions.md R88). -/
theorem commandEffect_reset_eq_iff (i : Instr) : commandEffect i Arch.reset = Arch.reset ↔ ∃ x, i = .nop x := by
  refine ⟨fun h => ?_, by rintro ⟨x, rfl⟩; exact commandEffect_nop x _⟩
  cases i with
  | nop x => exact ⟨x, rfl⟩
  | init seed => cases congrArg Arch.phase h
  | block k => cases congrArg Arch.err h
  | tail n t => cases congrArg Arch.err h
  | final x => cases congrArg Arch.err h

/-! ### The illegal beats -/

section

variable {ctl : Byte}

theorem decodeCheck_of_illegal_op (h : ctl.toNat % 8 = 5 ∨ ctl.toNat % 8 = 6 ∨ ctl.toNat % 8 = 7) :
    decodeCheck ctl = some .illegalOp := by
  revert ctl; decide

theorem decodeCheck_of_reserved_field (hop : ctl.toNat % 8 ≤ 4)
    (h : ctl.toNat / 32 ≠ 0 ∨ (ctl.toNat % 8 ≠ 3 ∧ ctl.toNat / 8 % 4 ≠ 0)) : decodeCheck ctl = some .reservedField := by
  revert ctl; decide

/-- With ERR = 0 a beat that fails the decode check changes ERR and ECODE only, whatever its data word (60_exceptions.md R84,
R87). -/
theorem execBeat_of_decodeCheck {e : CmdError} {s : State} (h : decodeCheck ctl = some e) (he : s.arch.err = false) (data : Word) :
    execBeat ⟨ctl, data⟩ s = .next { s with arch := { s.arch with err := true, ecode := errorCode e } } := by
  rw [execBeat, (decode_error_iff ⟨ctl, data⟩ e).2 h]
  simp only [State.mapArch, unlessErr_of_no_err he, raiseCmdError]

end

/-! ### The assembler -/

section

variable (b0 b1 b2 b3 : Byte) (d : List Byte)

/-- The disassembler's shape: a line printed only where it assembles to the beat, and `.beat` elsewhere (30_encoding.md R48). -/
theorem assemble_ite_beat {p : Prop} [Decidable p] {line : AsmLine} {b : Beat} (h : p → assemble line = some [b]) :
    assemble (if p then line else .beat b) = some [b] := by
  split
  · next hp => exact h hp
  · rfl

/-- The disassembler answers a beat by its mnemonic only where that assembles to the beat (30_encoding.md R48). -/
theorem assemble_disassemble (b : Beat) : assemble (disassemble b) = some [b] := by
  unfold disassemble
  cases hd : decode b with
  | error e => rfl
  | ok i =>
    obtain ⟨rfl, hwf⟩ := encode_of_decode hd
    cases i with
    | nop x => exact assemble_ite_beat (by rintro rfl; rfl)
    | init seed => rfl
    | block k => rfl
    | tail n t =>
      have hn : n ≠ 0 := by simpa [Instr.wellFormed] using hwf
      refine assemble_ite_beat fun ht => ?_
      rw [assemble, asmCommands, if_neg hn, asmTail, ht]
      · rfl
      · nofun
    | final x => exact assemble_ite_beat (by rintro rfl; rfl)

/-- R58's loop over a little-endian word keeps its first bytes and zero fills the rest (00_scope.md R9, 40_datapath.md R58). -/
theorem tailKeyLanes_bytesLe :
    tailKeyLanes 1 (bytesLe b0 b1 b2 b3) = bytesLe b0 0 0 0 ∧
    tailKeyLanes 2 (bytesLe b0 b1 b2 b3) = bytesLe b0 b1 0 0 ∧
    tailKeyLanes 3 (bytesLe b0 b1 b2 b3) = bytesLe b0 b1 b2 0 := by
  have hzero : ∀ i, atLane 0#8 i = 0#32 := fun i => by simp [atLane]
  obtain ⟨h0, h1, h2, -⟩ := MemoryProofs.lanes_bytesLe b0 b1 b2 b3
  simp only [tailKeyLanes, h0, h1, h2]
  simp only [bytesLe, hzero, BitVec.ofNat_eq_ofNat, BitVec.or_zero, BitVec.zero_or, and_self]

/-- A data word that is its own tail key goes through the assembler's TAIL unchanged (30_encoding.md R48). -/
theorem asmTail_of_tailKey_eq {n : BitVec 2} {w : Word} (h : tailKey n w = w) : asmTail n w = .tail n w := by
  rw [asmTail, ← tailKey_eq_and_tailMask, h]

/-- TAILB keeps its bytes, in order and zero filled (30_encoding.md R49). -/
theorem asmTailB_eq :
    asmTailB [b0] = some (.tail 1 (bytesLe b0 0 0 0)) ∧
    asmTailB [b0, b1] = some (.tail 2 (bytesLe b0 b1 0 0)) ∧
    asmTailB [b0, b1, b2] = some (.tail 3 (bytesLe b0 b1 b2 0)) := by
  obtain ⟨h1, -, -⟩ := tailKeyLanes_bytesLe b0 0 0 0
  obtain ⟨-, h2, -⟩ := tailKeyLanes_bytesLe b0 b1 0 0
  obtain ⟨-, -, h3⟩ := tailKeyLanes_bytesLe b0 b1 b2 0
  exact ⟨congrArg some (asmTail_of_tailKey_eq h1), congrArg some (asmTail_of_tailKey_eq h2),
    congrArg some (asmTail_of_tailKey_eq h3)⟩

/-- Four bytes more in front leave the tail word as it is (40_datapath.md R59). -/
theorem tailWord_cons4 : tailWord (b0 :: b1 :: b2 :: b3 :: d) = tailWord d := by
  have hlen : (b0 :: b1 :: b2 :: b3 :: d).length = d.length + 4 := rfl
  rw [tailWord, hlen, Nat.add_div_right _ (by decide), Nat.add_mod_right]
  rfl

/-- ABSORB's expansion by R59's block and tail words, four bytes at a time (30_encoding.md R49). -/
theorem asmAbsorb_eq (d : List Byte) :
    asmAbsorb d =
      (List.range (d.length / 4)).map (fun j => Instr.block (blockWord d j)) ++
        (if d.length % 4 = 0 then [] else [.tail (BitVec.ofNat 2 (d.length % 4)) (tailWord d)]) := by
  induction d using asmAbsorb.induct with
  | case1 b0 b1 b2 b3 rest ih =>
    have hlen : (b0 :: b1 :: b2 :: b3 :: rest).length = rest.length + 4 := rfl
    rw [asmAbsorb, ih, hlen, Nat.add_div_right _ (by decide), Nat.add_mod_right, tailWord_cons4, List.range_succ_eq_map,
      List.map_cons, List.map_map]
    -- block word j + 1 of the list is block word j of `rest` by computation
    rfl
  | case2 last h =>
    match last, h with
    | [], _ => rfl
    | [b0], _ =>
      obtain ⟨htail, -, -⟩ := asmTailB_eq b0 0 0
      simp [asmAbsorb, htail, tailWord, byteAt]
    | [b0, b1], _ =>
      obtain ⟨-, htail, -⟩ := asmTailB_eq b0 b1 0
      simp [asmAbsorb, htail, tailWord, byteAt]
    | [b0, b1, b2], _ =>
      obtain ⟨-, -, htail⟩ := asmTailB_eq b0 b1 b2
      simp [asmAbsorb, htail, tailWord, byteAt]
    | b0 :: b1 :: b2 :: b3 :: rest, h => exact absurd rfl (h b0 b1 b2 b3 rest)

end

/-! ### Offers -/

section

variable {b : Beat} {s t : State} {e : Event}

theorem acceptStep_of_not_enabled (h : s.rstN = false ∨ s.offered = none) : acceptStep s = .next s := by
  rcases acceptStep_cases s with hs | ⟨b, hr, ho, -⟩
  · exact hs
  · rcases h with h | h
    · simp [hr] at h
    · simp [ho] at h

theorem offered_of_retireStep (h : retireStep s = .next t) : t.offered = s.offered := by
  rcases retireStep_cases s with ⟨-, hs⟩ | ⟨_, _, -, hs⟩
  all_goals
    rw [hs] at h
    cases h
    rfl

theorem offered_of_readStep {sel : BitVec 2} (h : readStep sel s = .next t) : t.offered = s.offered := by
  obtain ⟨v, n, hs⟩ := readStep_cases sel s
  rw [hs] at h
  cases h
  rfl

/-- An edge leaves the offer standing, or accepts it, and the latter out of reset only (30_encoding.md R39, log 9). -/
theorem offered_of_acceptStep (h : acceptStep s = .next t) : t.offered = s.offered ∨ s.rstN = true := by
  rcases acceptStep_cases s with hs | ⟨_, hr, -⟩
  · rw [hs] at h
    cases h
    exact .inl rfl
  · exact .inr hr

/-- Over a scheduled event a standing offer stands on, is withdrawn, or is accepted at an edge out of reset (30_encoding.md R39). -/
theorem offered_of_liveEvent (ho : s.offered = some b) (h : liveEvent e s = .next t) :
    t.offered = s.offered ∨ e = .withdraw ∨ (e = .edge ∧ s.rstN = true) := by
  cases e with
  | offer b' =>
    simp only [liveEvent, offerStep, ho] at h
    split at h
    · cases h; exact .inl rfl
    · cases h
  | withdraw => exact .inr (.inl rfl)
  | edge => exact (offered_of_acceptStep h).imp_right fun hr => .inr ⟨rfl, hr⟩
  | retire => exact .inl (offered_of_retireStep h)
  | read sel => exact .inl (offered_of_readStep h)
  | assertReset => cases h; exact .inl rfl
  | releaseReset => cases h; exact .inl rfl
  | powerLoss => cases h; exact .inl rfl

/-- Before the first reset after power-up no step takes the offer away (93 U4). -/
theorem offered_of_unresetEvent (h : unresetEvent e s = .next t) : t.offered = s.offered := by
  cases e with
  | assertReset => cases h; rfl
  | powerLoss => cases h; rfl
  | _ => cases h

/-- With nothing scheduled a standing offer stands on, or is accepted (log 2). -/
theorem offered_of_quietStep (h : quietStep s = .next t) :
    t.offered = s.offered ∨ (s.live = true ∧ s.rstN = true ∧ s.pending = []) := by
  unfold quietStep at h
  split at h
  · next hl =>
    split at h
    · exact .inl (offered_of_retireStep h)
    · next hp => exact (offered_of_acceptStep h).imp_right fun hr => ⟨hl, hr, hp⟩
  · cases h

/-- Over a step a standing offer stands on unless the step withdraws or accepts it. -/
theorem offered_of_step (ho : s.offered = some b) (h : step s = .next t) :
    t.offered = some b ∨ s.schedule.head? = some .withdraw ∨ acceptedBy s = some b := by
  cases hs : s.schedule with
  | nil =>
    simp only [step, hs] at h
    rcases offered_of_quietStep h with ht | ⟨hl, hr, hp⟩
    · exact .inl (ht.trans ho)
    · exact .inr (.inr (by simp [acceptedBy, hl, hr, hs, hp, ho]))
  | cons e rest =>
    simp only [step, hs, eventStep] at h
    split at h
    · next hl =>
      rcases offered_of_liveEvent (s := { s with schedule := rest }) ho h with ht | rfl | ⟨rfl, hr⟩
      · exact .inl (ht.trans ho)
      · exact .inr (.inl rfl)
      · exact .inr (.inr (by simp [acceptedBy, hl, show s.rstN = true from hr, hs, ho]))
    · exact .inl ((offered_of_unresetEvent h).trans ho)

end

/-! ### The obligations -/

/-- Settles O15: the decode check passes a well-formed command, and OP selects it again. -/
theorem decodeOfEncodeIsTheCommand : Obligations.DecodeOfEncodeIsTheCommand := fun _ => decode_encode

/-- Settles O16, by the seven legal control bytes. -/
theorem encodeOfDecodeIsTheBeat : Obligations.EncodeOfDecodeIsTheBeat := fun _ _ => encode_of_decode

/-- Settles O17: `decode_ok_iff_encode` names the control byte of each row, and the row masks test that byte alone. -/
theorem opcodeMapMatchAndMask : Obligations.OpcodeMapMatchAndMask := by
  intro b
  have hN : b.bits.extractLsb' 35 2 = ctlN b.ctl := extractLsb'_bits_of_ctl b 3 2
  refine ⟨decode_ok_iff_row b (row := 0x00) rfl rfl, decode_ok_iff_row b (row := 0x01) rfl rfl,
    decode_ok_iff_row b (row := 0x02) rfl rfl, ?_, decode_ok_iff_row b (row := 0x04) rfl rfl, ?_, ?_⟩
  · rw [hN, show 0xe700000000#40 = (0xe7 : Byte) ++ 0#32 from rfl, show 0x0300000000#40 = (0x03 : Byte) ++ 0#32 from rfl,
      bits_and_mask_eq_iff, ← exists_mkCtl_tail_iff]
    refine exists_congr fun n => and_congr_right fun hn => ?_
    have hwf : (Instr.tail n b.data).wellFormed = true := bne_iff_ne.2 hn
    rw [decode_ok_iff_encode, and_iff_left hwf, encode, mk_data_eq_iff]
  · intro n t h
    obtain ⟨rfl, -⟩ := encode_of_decode h
    exact ⟨(hN.trans (ctlN_mkCtl n _)).symm, data_eq_extractLsb'_bits (encode (.tail n t))⟩
  · rw [exists_decode_ok_iff, decodeCheck_eq_none_iff]

/-- Settles O20: `exec` drops the data word of NOP and FINAL, TAIL sees its own under `mask(n)` only, and at reset every command
but NOP changes the registers. -/
theorem ignoredBitsHaveNoEffect : Obligations.IgnoredBitsHaveNoEffect := by
  refine ⟨fun x y s => ⟨rfl, rfl⟩, fun n t t' s h => ?_, fun x => ?_, fun i _ => ⟨fun h => ?_, ?_⟩⟩
  · rw [exec_eq, exec_eq, commandEffect, commandEffect, tailEffect_congr n h]
  · obtain ⟨hnop, -, -, htail1, htail2, htail3, hfinal⟩ := decode_legal x
    exact ⟨hnop, hfinal, htail1, htail2, htail3⟩
  · have hreset := h State.reset
    rw [exec_eq] at hreset
    exact (commandEffect_reset_eq_iff i).1 (congrArg State.arch (Host.Outcome.next.inj hreset))
  · rintro ⟨x, rfl⟩ s
    rw [exec_eq, State.mapArch, commandEffect_nop]

/-- Settles O22: a mnemonic is printed only for the encoding of the command it assembles to. -/
theorem assembleOfDisassembleIsTheBeat : Obligations.AssembleOfDisassembleIsTheBeat := assemble_disassemble

/-- Settles O23, by induction on the byte list four bytes at a time. -/
theorem absorbExpandsToBlocksAndATail : Obligations.AbsorbExpandsToBlocksAndATail :=
  fun _ d => ⟨asmAbsorb_eq d, rfl⟩

/-- Settles O14: the fields by their place in the append, and a beat that decodes as the encoding of its command. -/
theorem beatFieldsOfTheFortyBits : Obligations.BeatFieldsOfTheFortyBits := by
  refine ⟨fun b => ⟨rfl, ?_, ?_, ?_, data_eq_extractLsb'_bits b, rfl, rfl, rfl⟩, bits_ofBits, fun b i h => ?_⟩
  · exact (extractLsb'_bits_of_ctl b 0 3).symm
  · exact (extractLsb'_bits_of_ctl b 3 2).symm
  · exact (extractLsb'_bits_of_ctl b 5 3).symm
  · obtain ⟨rfl, -⟩ := encode_of_decode h
    obtain ⟨-, hrsv⟩ := encodedControl i
    exact ⟨hrsv, ctlN_encode_of_ne_tail⟩

/-- Settles O19: the decode check names the error, and the beat raises it. -/
theorem illegalBeatsRaiseTheirCode : Obligations.IllegalBeatsRaiseTheirCode := by
  intro ctl data s he
  refine ⟨fun h => ?_, fun hop h => ?_, ?_⟩
  · exact execBeat_of_decodeCheck (decodeCheck_of_illegal_op h) he data
  · exact execBeat_of_decodeCheck (decodeCheck_of_reserved_field hop h) he data
  · rintro rfl
    exact execBeat_of_decodeCheck (e := .tailZero) (by decide) he data

/-- Settles O21: each beat by running the decoder on it. -/
theorem sampleBeatsDecode : Obligations.SampleBeatsDecode :=
  ⟨rfl, rfl, rfl, rfl, rfl, rfl, rfl, rfl, rfl, rfl⟩

/-- Settles O53: the handshake case by case, what each port step does to the offer, and `offered_of_step` for a whole step. -/
theorem offersStandUntilAcceptedOrWithdrawn : Obligations.OffersStandUntilAcceptedOrWithdrawn := by
  refine ⟨fun b b' s => ⟨?_, ?_, ?_, ?_, acceptStep_of_not_enabled⟩, fun s t => ?_, fun b s t => offered_of_step⟩
  · intro ho
    simp [offerStep, ho]
  · intro ho
    simp [offerStep, ho]
  · intro ho hne
    simp [offerStep, ho, hne]
  · exact fun hr ho => ⟨s, acceptStep_of_not_enabled (.inl hr), ho⟩
  · refine ⟨rfl, offered_of_retireStep, fun sel => offered_of_readStep, ?_, ?_, ?_⟩
    all_goals
      intro h
      cases h
      rfl

end Sys2Proof.Machine.EncodingProofs
end

section
/-! Proofs of the family 40_datapath.md: the arithmetic of each unit, the bits the rotator and the shifters move, and why every unit
on the way from the seed to the hash is injective. -/

namespace Sys2Proof.Machine.DatapathProofs

open Sys2Proof Sys2Proof.Machine

/-! ### The rotator -/

section

variable (x : Word) (r : Nat)

theorem rotl_of_mod_eq_zero {r : Nat} (h : r % 32 = 0) : rotl x r = x := by simp [rotl, h]

/-- The source formula is the library's rotation. At amounts 0 modulo 32 they shift right by 0 and by 32, and keep x. -/
theorem rotl_eq_rotateLeft : rotl x r = x.rotateLeft r := by
  rw [BitVec.rotateLeft_def]
  rcases Nat.eq_zero_or_pos (r % 32) with h | h
  · rw [rotl_of_mod_eq_zero x h, h, BitVec.shiftLeft_zero, BitVec.ushiftRight_eq_zero (Nat.le_refl 32), BitVec.or_zero]
  · rw [rotl, Nat.mod_eq_of_lt (by omega : 32 - r % 32 < 32)]

/-- A rotation moves bit j to bit j + r, modulo 32 (40_datapath.md R51). -/
theorem getLsbD_rotl_add_mod {j : Nat} (hj : j < 32) : (rotl x r).getLsbD ((j + r) % 32) = x.getLsbD j := by
  rw [rotl_eq_rotateLeft, BitVec.getLsbD_rotateLeft]
  rcases Nat.lt_or_ge ((j + r) % 32) (r % 32) with hwrap | hmove
  · simp [hwrap, show 32 - r % 32 + (j + r) % 32 = j by omega]
  · simp [Nat.not_lt.2 hmove, Nat.mod_lt, show (j + r) % 32 - r % 32 = j by omega]

/-- Bit i comes from bit i - r, modulo 32 (40_datapath.md R51). -/
theorem getLsbD_rotl {i : Nat} (hi : i < 32) : (rotl x r).getLsbD i = x.getLsbD (((i : Int) - (r : Int)) % 32).toNat := by
  have hsource := getLsbD_rotl_add_mod x r (j := (((i : Int) - (r : Int)) % 32).toNat) (by omega)
  rwa [show ((((i : Int) - (r : Int)) % 32).toNat + r) % 32 = i by omega] at hsource

theorem rotl_injective : Function.Injective (rotl · r) := by
  intro x y h
  refine BitVec.eq_of_getLsbD_eq fun j hj => ?_
  have hbit := congrArg (BitVec.getLsbD · ((j + r) % 32)) h
  simpa only [getLsbD_rotl_add_mod _ _ hj] using hbit

/-- The two words whose bits are all alike do not change under a rotation. -/
theorem rotl_const : rotl 0 r = 0 ∧ rotl (BitVec.allOnes 32) r = BitVec.allOnes 32 := by
  constructor <;> refine BitVec.eq_of_getLsbD_eq fun i hi => ?_
  · simp [getLsbD_rotl _ _ hi]
  · rw [getLsbD_rotl _ _ hi, BitVec.getLsbD_allOnes, BitVec.getLsbD_allOnes]
    simp only [hi, decide_true, decide_eq_true_eq]
    omega

end

/-! ### The other units -/

section

variable (a b c x : Word)

theorem toNat_mac : (mac a b c).toNat = (a.toNat * b.toNat + c.toNat) % 2 ^ 32 := by
  rw [mac_eq, BitVec.toNat_add, BitVec.toNat_mul, Nat.mod_add_mod]

/-- The low half of the 64-bit product (40_datapath.md R50). -/
theorem mac_eq_low_half : mac a b c = (a.setWidth 64 * b.setWidth 64).extractLsb' 0 32 + c := by
  have hback : ∀ y : Word, (y.setWidth 64).setWidth 32 = y := fun y => by simp
  rw [mac_eq, ← BitVec.setWidth_eq_extractLsb' (by decide), BitVec.setWidth_mul _ _ (by decide), hback, hback]

/-- The operands read as signed (40_datapath.md R50). -/
theorem mac_eq_ofInt : mac a b c = BitVec.ofInt 32 (a.toInt * b.toInt + c.toInt) := by
  simp only [mac_eq, BitVec.ofInt_add, BitVec.ofInt_mul, BitVec.ofInt_toInt]

/-- A multiplier with an inverse modulo 2^32, as every odd one has, loses nothing. -/
theorem mac_injective {b d : Word} (hinv : b * d = 1) (c : Word) : Function.Injective (mac · b c) := by
  intro x y h
  simp only [mac_eq] at h
  exact (IsUnit.of_mul_eq_one d hinv).mul_right_cancel (add_right_cancel h)

theorem xorMix_injective : Function.Injective (xorMix · b) := fun _ _ => (BitVec.xor_left_inj b).1

theorem xorshift_xor (x y : Word) (s : Nat) : xorshift (x ^^^ y) s = xorshift x s ^^^ xorshift y s := by
  simp only [xorshift_eq, BitVec.ushiftRight_xor_distrib]
  ac_rfl

/-- Only 0 is its own right shift, so only 0 cancels. -/
theorem eq_zero_of_xorshift_eq_zero {x : Word} {s : Nat} (hs : 0 < s) (h : xorshift x s = 0) : x = 0 := by
  have hshift : x.toNat = x.toNat / 2 ^ s := by
    rw [← Nat.shiftRight_eq_div_pow, ← BitVec.toNat_ushiftRight, ← BitVec.xor_eq_zero_iff.1 h]
  refine BitVec.eq_of_toNat_eq ?_
  by_contra hne
  exact absurd (Nat.div_lt_self (Nat.pos_of_ne_zero hne) (Nat.one_lt_two_pow hs.ne')) (by omega)

theorem xorshift_injective {s : Nat} (hs : 0 < s) : Function.Injective (xorshift · s) := fun x y h =>
  BitVec.xor_eq_zero_iff.1 (eq_zero_of_xorshift_eq_zero hs ((xorshift_xor x y s).trans (BitVec.xor_eq_zero_iff.2 h)))

/-- The operand shifted in has zeros at the top (40_datapath.md R53). -/
theorem getLsbD_xorshift_of_top {s i : Nat} (h : 32 - s ≤ i) : (xorshift x s).getLsbD i = x.getLsbD i := by
  rw [xorshift_eq, BitVec.getLsbD_xor, BitVec.getLsbD_ushiftRight, BitVec.getLsbD_of_ge x (s + i) (by omega), Bool.xor_false]

end

/-! ### The mixes, and the hash as a function of the seed -/

/-- Here and in the next two lemmas each `d` is the inverse of the step's odd multiplier (10_state.md R22). -/
theorem kmix_injective : Function.Injective kmix :=
  ((mac_injective (d := 0x56ed309b) (by decide) 0).comp (rotl_injective rotKey)).comp
    (mac_injective (d := 0xdee13bb1) (by decide) 0)

theorem hmix_injective (k : Word) : Function.Injective (hmix · k) :=
  ((mac_injective (d := 0xcccccccd) (by decide) addAcc).comp (rotl_injective rotAcc)).comp (xorMix_injective (kmix k))

theorem fmix_injective : Function.Injective fmix :=
  ((((xorshift_injective (by decide)).comp (mac_injective (d := 0x7ed1b41d) (by decide) 0)).comp
    (xorshift_injective (by decide))).comp (mac_injective (d := 0xa5cb9243) (by decide) 0)).comp
    (xorshift_injective (by decide))

theorem finalMix_injective (len : Word) : Function.Injective (finalMix · len) := fmix_injective.comp (xorMix_injective len)

/-- There are finitely many words, so a unit that loses nothing reaches every one. -/
theorem bijective_of_injective {f : Word → Word} (h : Function.Injective f) : Function.Bijective f :=
  have : Finite Word := Finite.of_injective BitVec.toFin BitVec.toFin_injective
  Finite.injective_iff_bijective.1 h

/-- The accumulator over any blocks, as a function of its start (40_datapath.md R59, step 3). -/
theorem foldl_hmix_injective (word : Nat → Word) (js : List Nat) :
    Function.Injective fun h => js.foldl (fun h j => hmix h (word j)) h := by
  induction js with
  | nil => exact Function.injective_id
  | cons j js ih => exact ih.comp (hmix_injective (word j))

/-- The tail step, where there is a tail and where there is none (40_datapath.md R59, step 5). -/
theorem ite_xorMix_injective (p : Prop) [Decidable p] (t : Word) :
    Function.Injective fun h => if p then xorMix h t else h := by
  by_cases hp : p
  · simp only [if_pos hp]
    exact xorMix_injective t
  · simp only [if_neg hp]
    exact Function.injective_id

/-! ### The tail key -/

section

variable {n : BitVec 2} {x y : Word}

theorem lane_tailKey {i : Nat} (hi : i < n.toNat) : lane (tailKey n x) i = lane x i := by
  refine BitVec.eq_of_getLsbD_eq fun j hj => ?_
  rw [MemoryProofs.getLsbD_lane, MemoryProofs.getLsbD_lane, tailKey, EncodingProofs.getLsbD_tailKeyLanes]
  simp [show 8 * i + j < 8 * n.toNat by omega]

/-- The lanes of a tail key from n up are 0 (40_datapath.md R58). -/
theorem getLsbD_tailKey_of_ge {i : Nat} (hi : 8 * n.toNat ≤ i) : (tailKey n x).getLsbD i = false := by
  rw [tailKey, EncodingProofs.getLsbD_tailKeyLanes]
  simp [Nat.not_lt.2 hi]

/-- R58's loop reads the first m lanes and no other. -/
theorem tailKeyLanes_congr {m : Nat} (h : ∀ i < m, lane x i = lane y i) : tailKeyLanes m x = tailKeyLanes m y := by
  induction m with
  | zero => rfl
  | succ m ih => rw [tailKeyLanes, tailKeyLanes, ih fun i hi => h i (by omega), h m (Nat.lt_succ_self m)]

end

/-! ### The obligations -/

/-- Settles O13: the blocks, the tail and the finalization each lose nothing of the accumulator, and the hash is the three in a
row. -/
theorem hashIsInjectiveInTheSeed : Obligations.HashIsInjectiveInTheSeed := by
  intro d
  have hblocks := foldl_hmix_injective (blockWord d) (List.range (d.length / 4))
  have htail := ite_xorMix_injective (d.length % 4 ≠ 0) (kmix (tailWord d))
  have hfinal := finalMix_injective (BitVec.ofNat 32 d.length)
  exact (hfinal.comp htail).comp hblocks

/-- Settles O3: the bit law, with the amounts 0 modulo 32 as the identity. -/
theorem rotlMovesBitsModulo32 : Obligations.RotlMovesBitsModulo32 := by
  refine ⟨fun x r => ⟨?_, fun i => getLsbD_rotl x r, rotl_of_mod_eq_zero x, rotl_of_mod_eq_zero x rfl, ?_⟩,
    rfl, rfl, by decide, by decide⟩
  · rw [rotl, show ((32 - (r : Int)) % 32).toNat = (32 - r % 32) % 32 by omega]
  · exact rotl_const r

/-- Settles O6: a bijection because its three steps are injective. -/
theorem kmixStepsAndBijection : Obligations.KmixStepsAndBijection :=
  ⟨by rintro k _ _ rfl rfl; rfl, kmix_zero, bijective_of_injective kmix_injective, by decide, by decide, by decide⟩

/-- Settles O8: a bijection because its five steps are injective. -/
theorem fmixStepsAndBijection : Obligations.FmixStepsAndBijection :=
  ⟨by rintro h _ _ _ _ rfl rfl rfl rfl; rfl, by decide, by decide, by decide, bijective_of_injective fmix_injective,
    by decide, by decide, by decide, by decide, by decide⟩

/-- Settles O10: the key is the data word under `mask(n)`, lane by lane. -/
theorem tailKeyIsTheLowLanes : Obligations.TailKeyIsTheLowLanes :=
  ⟨fun n x => ⟨EncodingProofs.tailKey_eq_and_tailMask n x, fun _ => lane_tailKey, fun _ => getLsbD_tailKey_of_ge,
    fun _ => tailKeyLanes_congr⟩, by decide, by decide, by decide, by decide⟩

/-- Settles O2: the three readings of the product and sum. -/
theorem macIsExactModulo2Pow32 : Obligations.MacIsExactModulo2Pow32 :=
  ⟨fun a b c => ⟨toNat_mac a b c, mac_eq_low_half a b c, mac_eq_ofInt a b c, mac_zero_addend a b⟩,
    by decide, by decide, by decide, by decide⟩

/-- Settles O4, by the library's laws of exclusive OR. -/
theorem xorMixIsBitwise : Obligations.XorMixIsBitwise := by
  refine ⟨fun a b => ?_, by decide⟩
  simp only [xorMix_eq]
  exact ⟨fun _ _ => BitVec.getLsbD_xor, BitVec.xor_self, BitVec.xor_zero, BitVec.xor_comm a b⟩

/-- Settles O5: the shift is zero filled, and 0 is the XOR of 0 with itself. -/
theorem xorshiftKeepsTheTopBits : Obligations.XorshiftKeepsTheTopBits := by
  have hzero : ∀ s, xorshift 0 s = 0 := fun s => BitVec.zero_xor.trans BitVec.zero_ushiftRight
  exact ⟨fun x s => ⟨xorshift_eq x s, fun _ _ => getLsbD_xorshift_of_top x, hzero s⟩, rfl, rfl, rfl,
    by decide, by decide, by decide, by decide⟩

/-- Settles O7: where the XOR cancels, the rotation and the product have 0 to work on. -/
theorem hmixStepsAndCancellation : Obligations.HmixStepsAndCancellation := by
  have hcancel : ∀ h k : Word, h = kmix k → hmix h k = 0xe6546b64 := by
    rintro _ k rfl
    rw [hmix_eq, BitVec.xor_self]
    decide
  have hk : kmix 0x87654321 = 0x5082edee := by decide
  exact ⟨by rintro h k _ _ rfl rfl; rfl, hcancel 0 0 kmix_zero.symm, hcancel, hk, hcancel _ _ hk.symm,
    by decide, by decide, by decide⟩

/-- Settles O9: the empty input has no block and no tail, and its length is 0. -/
theorem finalMixFoldsInTheLength : Obligations.FinalMixFoldsInTheLength := by
  have hzero : ∀ seed : Word, finalMix seed 0 = fmix seed := fun seed => congrArg fmix (BitVec.xor_zero (x := seed))
  exact ⟨finalMix_eq, by decide, fun seed => ⟨hzero seed, hzero seed⟩, by decide, by decide, by decide, by decide, by decide,
    by decide⟩

/-- Settles O12: the witness is the empty input under seeds 0 and 1. -/
theorem seedChangesTheHash : Obligations.SeedChangesTheHash := by
  have h0 : murmur3 [] 0 = 0x00000000 := by decide
  have h1 : murmur3 [] 1 = 0x514e28b7 := by decide
  exact ⟨⟨[], 0, 1, by decide, by rw [h0, h1]; decide⟩, h0, h1⟩

end Sys2Proof.Machine.DatapathProofs
end

section
/-! Proofs of the family 41_commands.md: each command performed, dropped or out of sequence, the reads of STATUS, and the commands of
HASH against the reference function. -/

namespace Sys2Proof.Machine.CommandProofs

open Sys2Proof Sys2Proof.Machine

/-! ### Each command performed, dropped or out of sequence -/

section

variable {s : State} {i : Instr} {p : Phase}

theorem phase_ne_absorb_iff : p ≠ .absorb ↔ p = .idle ∨ p = .tailed ∨ p = .done := by cases p <;> simp

theorem phase_not_absorb_or_tailed_iff : ¬(p = .absorb ∨ p = .tailed) ↔ p = .idle ∨ p = .done := by cases p <;> simp

theorem exec_nop (x : Word) (s : State) : exec (.nop x) s = .next s := by
  rw [exec_eq, State.mapArch, commandEffect_nop]

theorem exec_init (seed : Word) (s : State) : exec (.init seed) s = .next (s.mapArch (initEffect seed)) := rfl

section

variable {allowed : Phase → Bool} {f : Arch → Arch}

theorem exec_of_allowed (hi : commandEffect i = sequenced allowed f) (he : s.arch.err = false)
    (hp : allowed s.arch.phase = true) : exec i s = .next (s.mapArch f) := by
  rw [exec_eq, hi, State.mapArch, sequenced_of_allowed he hp, State.mapArch]

theorem exec_of_not_allowed (hi : commandEffect i = sequenced allowed f) (he : s.arch.err = false)
    (hp : ¬ allowed s.arch.phase = true) : exec i s = .next (s.mapArch (raiseCmdError .sequence)) := by
  rw [exec_eq, hi, State.mapArch, sequenced_of_not_allowed he (Bool.eq_false_iff.2 hp), State.mapArch]

/-- A command that needs a phase, in the order of R67: dropped, performed, or in error. -/
theorem exec_eq_of_sequenced (hi : commandEffect i = sequenced allowed f) (s : State) :
    exec i s =
      if s.arch.err = true then .next s
      else if allowed s.arch.phase = true then .next (s.mapArch f)
      else .next (s.mapArch (raiseCmdError .sequence)) := by
  split_ifs with he hp
  · rw [exec_eq, hi, State.mapArch, sequenced_of_err he]
  · exact exec_of_allowed hi (Bool.eq_false_iff.2 he) hp
  · exact exec_of_not_allowed hi (Bool.eq_false_iff.2 he) hp

end

theorem exec_block_of_absorb (k : Word) (he : s.arch.err = false) (hp : s.arch.phase = .absorb) :
    exec (.block k) s = .next (s.mapArch (blockEffect k)) :=
  exec_of_allowed rfl he ((inAbsorb_iff _).2 hp)

theorem exec_block_of_not_absorb (k : Word) (he : s.arch.err = false) (hp : s.arch.phase ≠ .absorb) :
    exec (.block k) s = .next (s.mapArch (raiseCmdError .sequence)) :=
  exec_of_not_allowed rfl he (mt (inAbsorb_iff _).1 hp)

theorem exec_tail_of_absorb (n : BitVec 2) (t : Word) (he : s.arch.err = false) (hp : s.arch.phase = .absorb) :
    exec (.tail n t) s = .next (s.mapArch (tailEffect n t)) :=
  exec_of_allowed rfl he ((inAbsorb_iff _).2 hp)

theorem exec_tail_of_not_absorb (n : BitVec 2) (t : Word) (he : s.arch.err = false) (hp : s.arch.phase ≠ .absorb) :
    exec (.tail n t) s = .next (s.mapArch (raiseCmdError .sequence)) :=
  exec_of_not_allowed rfl he (mt (inAbsorb_iff _).1 hp)

theorem exec_final_of_absorb_or_tailed (x : Word) (he : s.arch.err = false)
    (hp : s.arch.phase = .absorb ∨ s.arch.phase = .tailed) : exec (.final x) s = .next (s.mapArch finalEffect) :=
  exec_of_allowed rfl he ((inAbsorbOrTailed_iff _).2 hp)

theorem exec_final_of_not_absorb_or_tailed (x : Word) (he : s.arch.err = false)
    (hp : ¬(s.arch.phase = .absorb ∨ s.arch.phase = .tailed)) :
    exec (.final x) s = .next (s.mapArch (raiseCmdError .sequence)) :=
  exec_of_not_allowed rfl he (mt (inAbsorbOrTailed_iff _).1 hp)

/-- While ERR = 1 every command but INIT is dropped (60_exceptions.md R85). -/
theorem exec_of_err (he : s.arch.err = true) (hi : ∀ seed, i ≠ .init seed) : exec i s = .next s := by
  cases i with
  | nop x => exact exec_nop x s
  | init seed => exact absurd rfl (hi seed)
  | block k => exact (exec_eq_of_sequenced rfl s).trans (if_pos he)
  | tail n t => exact (exec_eq_of_sequenced rfl s).trans (if_pos he)
  | final x => exact (exec_eq_of_sequenced rfl s).trans (if_pos he)

end

/-! ### The control byte -/

section

variable {b : Beat} {ctl : Byte}

/-- A command other than TAIL with a bit of RSV or N set (30_encoding.md R44). -/
theorem decodeCheck_reserved_field (hop : ctl.extractLsb' 0 3 ≤ 4#3 ∧ ctl.extractLsb' 0 3 ≠ 3#3)
    (hupper : ctl.extractLsb' 3 5 ≠ 0) : decodeCheck ctl = some .reservedField := by
  revert ctl; decide

/-- TAIL with a bit of RSV set, whatever N is (30_encoding.md R44, R45). -/
theorem decodeCheck_tail_reserved_field (hop : ctl.extractLsb' 0 3 = 3#3) (hrsv : ctl.extractLsb' 5 3 ≠ 0) :
    decodeCheck ctl = some .reservedField := by
  revert ctl; decide

/-- The form in which each command but TAIL states its one error. -/
theorem decode_reserved_field {op : BitVec 3} (hop : op ≤ 4#3 ∧ op ≠ 3#3) (ctl : Byte) (data : Word)
    (h : ctl.extractLsb' 0 3 = op) (hupper : ctl.extractLsb' 3 5 ≠ 0) : decode ⟨ctl, data⟩ = .error .reservedField := by
  subst h
  exact (decode_error_iff ⟨ctl, data⟩ _).2 (decodeCheck_reserved_field hop hupper)

/-- What OP selects (30_encoding.md R42). -/
theorem selectInstr_cases (b : Beat) :
    (b.ctl.extractLsb' 0 3 = 0#3 ∧ selectInstr b = .nop b.data) ∨
    (b.ctl.extractLsb' 0 3 = 1#3 ∧ selectInstr b = .init b.data) ∨
    (b.ctl.extractLsb' 0 3 = 2#3 ∧ selectInstr b = .block b.data) ∨
    (b.ctl.extractLsb' 0 3 = 3#3 ∧ selectInstr b = .tail (b.ctl.extractLsb' 3 2) b.data) ∨
    ((b.ctl.extractLsb' 0 3 ≠ 0#3 ∧ b.ctl.extractLsb' 0 3 ≠ 1#3 ∧ b.ctl.extractLsb' 0 3 ≠ 2#3 ∧
      b.ctl.extractLsb' 0 3 ≠ 3#3) ∧ selectInstr b = .final b.data) := by
  unfold selectInstr ctlOp ctlN
  split_ifs <;> simp_all

theorem execBeat_of_decode_error {e : CmdError} (h : decodeCheck b.ctl = some e) (s : State) :
    execBeat b s = .next (s.mapArch (unlessErr (raiseCmdError e))) := by
  rw [execBeat, (decode_error_iff b e).2 h]

theorem execBeat_of_legal (h : decodeCheck b.ctl = none) (s : State) : execBeat b s = exec (selectInstr b) s := by
  rw [execBeat, (decode_ok_iff b _).2 ⟨h, rfl⟩]

end

/-- Settles O24: an illegal beat is dropped or raises its error, and OP selects the command of a legal one. -/
theorem execDropsThenChecksThenPerforms : Obligations.ExecDropsThenChecksThenPerforms := by
  intro b s
  cases hc : decodeCheck b.ctl with
  | some e =>
    rw [execBeat_of_decode_error hc, State.mapArch]
    cases he : s.arch.err with
    | true => simp [unlessErr_of_err he]
    | false => simp [unlessErr_of_no_err he, State.mapArch]
  | none =>
    rw [execBeat_of_legal hc]
    rcases selectInstr_cases b with ⟨hop, hi⟩ | ⟨hop, hi⟩ | ⟨hop, hi⟩ | ⟨hop, hi⟩ | ⟨hop, hi⟩
    · simp [hi, hop, exec_nop]
    · simp [hi, hop, exec_init]
    · simp [hi, hop, exec_eq_of_sequenced (i := .block b.data) rfl]
    · simp [hi, hop, exec_eq_of_sequenced (i := .tail _ b.data) rfl]
    · simp [hi, hop, exec_eq_of_sequenced (i := .final b.data) rfl, ← not_or]

/-- Settles O25: NOP's effect is the identity, dropped or not. -/
theorem nopCompletesUnchanged : Obligations.NopCompletesUnchanged := by
  refine ⟨exec_nop, fun x => ?_, decode_reserved_field (by decide)⟩
  obtain ⟨hnop, -⟩ := decode_legal x
  exact hnop

/-- Settles O26: INIT's effect writes every register but RESULT to a value of its own. -/
theorem initCompletesFromEveryState : Obligations.InitCompletesFromEveryState := by
  refine ⟨exec_init, fun i s => exec_of_err, fun seed seed' s t h => ?_, fun seed => ?_,
    decode_reserved_field (by decide), exec_init _ _⟩
  · cases h
    rfl
  · obtain ⟨-, hinit, -⟩ := decode_legal seed
    exact hinit

/-- Settles O27: the two cases of the sequence check, and the values of `hmix` from `hmixStepsAndCancellation`. -/
theorem blockCompletesInAbsorb : Obligations.BlockCompletesInAbsorb := by
  obtain ⟨-, hzero, hcancel, -, -, -, -, hexample⟩ := DatapathProofs.hmixStepsAndCancellation
  refine ⟨fun k s => exec_block_of_absorb k, fun k s => exec_block_of_not_absorb k, fun k => ?_,
    decode_reserved_field (by decide), hzero, by decide, fun k => hcancel _ k rfl, fun s he hp hh hl => ?_⟩
  · obtain ⟨-, -, hblock, -⟩ := decode_legal k
    exact hblock
  · rw [exec_block_of_absorb _ he hp, State.mapArch, blockEffect, hh, hl, hexample]
    rfl

/-- Settles O28: TAIL sees its data word through the tail key only, and the key 0 mixes in 0. -/
theorem tailCompletesInAbsorb : Obligations.TailCompletesInAbsorb := by
  refine ⟨fun n t s => exec_tail_of_absorb n t, fun n t s => exec_tail_of_not_absorb n t, fun t => ?_, fun t => ?_,
    fun ctl data hop hrsv => ?_, fun n t t' s hlanes => ?_, fun n t s he hp hkey => ?_, by decide,
    fun s he hp hh hl => ?_⟩
  · obtain ⟨-, -, -, htail1, htail2, htail3, -⟩ := decode_legal t
    exact ⟨htail1, htail2, htail3⟩
  · have hcheck : decodeCheck 0x03 = some .tailZero := by decide
    exact (decode_error_iff ⟨0x03, t⟩ _).2 hcheck
  · exact (decode_error_iff ⟨ctl, data⟩ _).2 (decodeCheck_tail_reserved_field hop hrsv)
  · have hkey : tailKey n t = tailKey n t' := DatapathProofs.tailKeyLanes_congr hlanes
    rw [EncodingProofs.tailKey_eq_and_tailMask, EncodingProofs.tailKey_eq_and_tailMask] at hkey
    rw [exec_eq, exec_eq, commandEffect, commandEffect, EncodingProofs.tailEffect_congr n hkey]
  · have hmix : xorMix s.arch.h (kmix (tailKey n t)) = s.arch.h := by
      rw [hkey, kmix_zero]
      exact BitVec.xor_zero
    rw [exec_tail_of_absorb _ _ he hp, State.mapArch, tailEffect, hmix]
  · have hmix : xorMix 0x225f6ab7 (kmix (tailKey 3 0x00646c72)) = 0x07ff5c6c := by decide
    rw [exec_tail_of_absorb _ _ he hp, State.mapArch, tailEffect, hh, hl, hmix]
    rfl

/-- Settles O29: the two cases of the sequence check; after INIT, LEN is 0 and H the seed. -/
theorem finalCompletesInAbsorbOrTailed : Obligations.FinalCompletesInAbsorbOrTailed := by
  obtain ⟨-, -, hempty, -, -, -, -, -, hexample⟩ := DatapathProofs.finalMixFoldsInTheLength
  refine ⟨fun x s => exec_final_of_absorb_or_tailed x, fun x s he hp => ?_, fun x => ?_,
    decode_reserved_field (by decide), fun seed x s t h => ?_, by decide, fun s he hp hh hl => ?_⟩
  · exact exec_final_of_not_absorb_or_tailed x he (phase_not_absorb_or_tailed_iff.2 hp)
  · obtain ⟨-, -, -, -, -, -, hfinal⟩ := decode_legal x
    exact hfinal
  · cases h
    obtain ⟨hseed, -⟩ := hempty seed
    exact ⟨_, exec_final_of_absorb_or_tailed x rfl (.inl rfl), hseed⟩
  · have hv : finalMix s.arch.h s.arch.len = 0xea0c9bf9 := by rw [hh, hl, hexample]
    rw [exec_final_of_absorb_or_tailed _ he (.inr hp), State.mapArch, finalEffect, hv]

/-- Settles O30: each cell of the table by the case of the sequence check it is. -/
theorem legalityOfEachCommandInEachPhase : Obligations.LegalityOfEachCommandInEachPhase := by
  intro s he
  refine ⟨fun x => exec_nop x s, fun seed => ⟨exec_init seed s, rfl⟩, fun k => ⟨fun hp => ?_, fun hp => ?_⟩,
    fun n t => ⟨fun hp => ?_, fun hp => ?_⟩, fun x => ⟨fun hp => ?_, fun hp => ?_⟩⟩
  · exact ⟨exec_block_of_absorb k he hp, hp⟩
  · exact exec_block_of_not_absorb k he (phase_ne_absorb_iff.2 hp)
  · exact ⟨exec_tail_of_absorb n t he hp, rfl⟩
  · exact exec_tail_of_not_absorb n t he (phase_ne_absorb_iff.2 hp)
  · exact ⟨exec_final_of_absorb_or_tailed x he hp, rfl⟩
  · exact exec_final_of_not_absorb_or_tailed x he (phase_not_absorb_or_tailed_iff.2 hp)

/-- Settles O34: RESULT is the one register INIT takes over. -/
theorem initForgetsTheOldHash : Obligations.InitForgetsTheOldHash := by
  intro seed s s' t t' hresult h h'
  cases h
  cases h'
  exact ⟨congrArg (Arch.mk seed 0 .absorb · false 0) hresult, rfl⟩

/-! ### Reads of STATUS -/

section

variable (busyBit : Bool) (a : Arch)

/-- The fields of STATUS above PHASE (10_state.md R16). -/
theorem statusWord_fields : (statusWord busyBit a).getLsbD 2 = a.err ∧ (statusWord busyBit a).extractLsb' 3 3 = a.ecode ∧
    (statusWord busyBit a).getLsbD 6 = busyBit := by
  unfold statusWord
  generalize phaseBits a.phase = p
  generalize a.ecode = c
  generalize a.err = e
  revert busyBit p c e
  decide

/-- STATUS is seven bits wide; the rest reads 0 (10_state.md R16). -/
theorem getLsbD_statusWord_of_ge {i : Nat} (hi : 7 ≤ i) : (statusWord busyBit a).getLsbD i = false := by
  rw [statusWord, BitVec.getLsbD_setWidth, BitVec.getLsbD_of_ge _ i hi, Bool.and_false]

end

theorem readStep_unsettled {sel : BitVec 2} {s : State} (hr : s.rstN = true) (hp : s.pending ≠ []) :
    readStep sel s = .next ((s.showRead sel (unsettledValue (freeWord s) sel)).drawn 1) := by simp [readStep, hr, hp]

/-- BUSY is exact in an unsettled read of STATUS too (70_reset_and_hazards.md R104). -/
theorem unsettledValue_busy_bit (junk : Word) : (unsettledValue junk 1).getLsbD 6 = true := by
  simp [unsettledValue]

/-- Settles O46: the settled read answers the fields with BUSY = 0, the unsettled one sets bit 6. -/
theorem statusReadIsTheFields : Obligations.StatusReadIsTheFields := by
  refine ⟨fun s hr => ?_, fun busyBit a => ?_, fun s hr hp hphase he hcode => ?_⟩
  · by_cases hp : s.pending = []
    · obtain ⟨-, -, hbusy⟩ := statusWord_fields false s.arch
      exact ⟨_, readStep_settled hr hp, rfl, rfl, by rw [busy, hp]; exact hbusy, fun _ => rfl⟩
    · have hbusy : busy s = true := by simp [busy, hp]
      exact ⟨_, readStep_unsettled hr hp, rfl, rfl, hbusy ▸ unsettledValue_busy_bit _, fun h => absurd h hp⟩
  · obtain ⟨herr, hcode, hbusy⟩ := statusWord_fields busyBit a
    exact ⟨StateProofs.statusWord_phase_bits busyBit a, herr, hcode, hbusy, fun i => getLsbD_statusWord_of_ge busyBit a⟩
  · have hword : statusWord false s.arch = 0x00000026 := by rw [statusWord, hphase, he, hcode]; decide
    rw [readStep_settled hr hp, State.showRead]
    exact congrArg (fun v => Host.Outcome.next { s with rdSel := 1, rdData := v }) hword

/-! ### The commands of HASH -/

/-- The registers after these commands have taken their effect one after the other; `retireAll_map_encode` says that it is what their
beats do. -/
def commandsEffect (is : List Instr) (a : Arch) : Arch := is.foldl (fun a i => commandEffect i a) a

/-- The accumulator after the input's blocks and its tail, from `h`: steps 3 to 5 of R59; `murmur3_eq` says that only the
finalization is missing. -/
def absorbBytes (d : List Byte) (h : Word) : Word :=
  let h := (List.range (d.length / 4)).foldl (fun h j => hmix h (blockWord d j)) h
  if d.length % 4 ≠ 0 then xorMix h (kmix (tailWord d)) else h

section

variable {a : Arch} {s : State} {i : Instr} {is : List Instr} {bs : List Beat} (d : List Byte) (seed : Word)

theorem murmur3_eq : murmur3 d seed = finalMix (absorbBytes d seed) (BitVec.ofNat 32 d.length) := rfl

@[simp] theorem commandsEffect_nil (a : Arch) : commandsEffect [] a = a := rfl

@[simp] theorem commandsEffect_cons (i : Instr) (is : List Instr) (a : Arch) :
    commandsEffect (i :: is) a = commandsEffect is (commandEffect i a) := rfl

theorem commandsEffect_append (is js : List Instr) (a : Arch) :
    commandsEffect (is ++ js) a = commandsEffect js (commandsEffect is a) := List.foldl_append

theorem beatEffect_encode (h : i.wellFormed = true) : beatEffect (encode i) = commandEffect i := by
  rw [beatEffect, EncodingProofs.decode_encode h]

theorem retireAll_append (bs cs : List Beat) (s : State) : retireAll (bs ++ cs) s = retireAll cs (retireAll bs s) := by
  simp only [retireAll_eq, List.foldl_append]

theorem retireAll_map_encode (h : ∀ i ∈ is, i.wellFormed = true) :
    retireAll (is.map encode) s = s.mapArch (commandsEffect is) := by
  induction is generalizing s with
  | nil => rfl
  | cons i is ih =>
    rw [List.map_cons, retireAll, nextOr_execBeat, beatEffect_encode (h i (by simp)), ih fun j hj => h j (by simp [hj])]
    rfl

/-- Once ERR = 1, beats that are no INIT leave the state as it is (60_exceptions.md R85). -/
theorem retireAll_of_err (he : s.arch.err = true) (h : ∀ b ∈ bs, b.ctl ≠ 0x01) : retireAll bs s = s := by
  induction bs with
  | nil => rfl
  | cons b bs ih =>
    obtain ⟨hb, hbs⟩ := List.forall_mem_cons.1 h
    rcases beatEffect_of_err (b := b) he with ⟨hc, -⟩ | ⟨-, hkeep⟩
    · exact absurd hc hb
    · rw [retireAll, nextOr_execBeat, State.mapArch, hkeep]
      exact ih hbs

/-- ABSORB stands for BLOCKs and TAILs of at least one byte (30_encoding.md R49). -/
theorem block_or_tail_of_mem_asmAbsorb (h : i ∈ asmAbsorb d) :
    (∃ k, i = .block k) ∨ (∃ n t, n ≠ 0 ∧ i = .tail n t) := by
  rw [EncodingProofs.asmAbsorb_eq, List.mem_append] at h
  rcases h with h | h
  · obtain ⟨j, -, rfl⟩ := List.mem_map.1 h
    exact .inl ⟨_, rfl⟩
  · split at h
    · cases h
    · next hr =>
      rw [List.mem_singleton] at h
      exact .inr ⟨_, _, fun h0 => hr (by simpa using congrArg BitVec.toNat h0), h⟩

theorem wellFormed_of_mem_asmHash (h : i ∈ asmHash seed d) : i.wellFormed = true := by
  simp only [asmHash, List.mem_cons, List.mem_append, List.not_mem_nil, or_false] at h
  rcases h with rfl | h | rfl
  · rfl
  · rcases block_or_tail_of_mem_asmAbsorb d h with ⟨k, rfl⟩ | ⟨n, t, hn, rfl⟩
    · rfl
    · exact bne_iff_ne.2 hn
  · rfl

theorem encode_ctl_ne_init (h : ∀ seed, i ≠ .init seed) : (encode i).ctl ≠ 0x01 := by
  have hop : ctlOp (encode i).ctl ≠ 1#3 := by
    cases i with
    | init seed => exact absurd rfl (h seed)
    | _ => rw [encode, ctlOp_mkCtl]; decide
  exact fun hc => hop (by rw [hc]; decide)

/-- The first command of HASH is its only INIT. -/
theorem ctl_ne_init_of_mem_drop_asmHash {b : Beat} (h : b ∈ ((asmHash seed d).map encode).drop 1) : b.ctl ≠ 0x01 := by
  obtain ⟨i, hi, rfl⟩ := List.mem_map.1 h
  refine encode_ctl_ne_init fun seed' => ?_
  rcases List.mem_append.1 hi with hi | hi
  · rcases block_or_tail_of_mem_asmAbsorb d hi with ⟨k, rfl⟩ | ⟨n, t, -, rfl⟩ <;> nofun
  · cases List.mem_singleton.1 hi
    nofun

/-- The blocks of a hash in progress fold into H, 4 bytes each (41_commands.md R70). -/
theorem commandsEffect_blocks (word : Nat → Word) (js : List Nat) (he : a.err = false) (hp : a.phase = .absorb) :
    commandsEffect (js.map fun j => .block (word j)) a =
      { a with h := js.foldl (fun h j => hmix h (word j)) a.h, len := a.len + BitVec.ofNat 32 (4 * js.length) } := by
  induction js generalizing a with
  | nil => simp
  | cons j js ih =>
    have hlen : a.len + 4 + BitVec.ofNat 32 (4 * js.length) = a.len + BitVec.ofNat 32 (4 * (js.length + 1)) := by
      rw [Nat.mul_add, BitVec.ofNat_add, BitVec.add_assoc, BitVec.add_comm 4]
      rfl
    rw [List.map_cons, commandsEffect_cons, commandEffect, sequenced_of_allowed he ((inAbsorb_iff _).2 hp),
      ih (a := blockEffect (word j) a) he hp, blockEffect_len, hlen]
    rfl

/-- The tail word holds the last L mod 4 bytes and no other, so it is its own tail key (40_datapath.md R58, R59). -/
theorem tailKey_tailWord (hr : d.length % 4 ≠ 0) : tailKey (BitVec.ofNat 2 (d.length % 4)) (tailWord d) = tailWord d := by
  have hlt : d.length % 4 < 4 := Nat.mod_lt _ (by decide)
  rw [tailWord]
  generalize d.length % 4 = r at hr hlt ⊢
  interval_cases r
  · exact absurd rfl hr
  · exact (EncodingProofs.tailKeyLanes_bytesLe _ _ _ _).1
  · exact (EncodingProofs.tailKeyLanes_bytesLe _ _ _ _).2.1
  · exact (EncodingProofs.tailKeyLanes_bytesLe _ _ _ _).2.2

/-- The last command of ABSORB, where the input has a tail (41_commands.md R71). -/
theorem commandEffect_tail_of_tailWord (hr : d.length % 4 ≠ 0) (he : a.err = false) (hp : a.phase = .absorb) :
    commandEffect (.tail (BitVec.ofNat 2 (d.length % 4)) (tailWord d)) a =
      { a with h := xorMix a.h (kmix (tailWord d)), len := a.len + BitVec.ofNat 32 (d.length % 4), phase := .tailed } := by
  have hn : (BitVec.ofNat 2 (d.length % 4)).setWidth 32 = BitVec.ofNat 32 (d.length % 4) := by
    refine BitVec.eq_of_toNat_eq ?_
    rw [BitVec.toNat_setWidth, BitVec.toNat_ofNat, BitVec.toNat_ofNat, Nat.mod_mod]
  rw [commandEffect, sequenced_of_allowed he ((inAbsorb_iff _).2 hp), tailEffect, tailKey_tailWord d hr, hn]

/-- What ABSORB leaves of a hash just begun: every byte in H and in LEN, in ABSORB or in TAILED (30_encoding.md R49). -/
theorem commandsEffect_asmAbsorb (he : a.err = false) (hp : a.phase = .absorb) :
    commandsEffect (asmAbsorb d) a =
      { a with h := absorbBytes d a.h, len := a.len + BitVec.ofNat 32 d.length,
               phase := if d.length % 4 = 0 then .absorb else .tailed } := by
  have hlen : BitVec.ofNat 32 d.length = BitVec.ofNat 32 (4 * (d.length / 4)) + BitVec.ofNat 32 (d.length % 4) := by
    rw [← BitVec.ofNat_add, Nat.div_add_mod]
  rw [EncodingProofs.asmAbsorb_eq, commandsEffect_append, commandsEffect_blocks _ _ he hp, List.length_range, absorbBytes, hlen,
    ← BitVec.add_assoc]
  by_cases hr : d.length % 4 = 0
  · simp [hr, hp]
  · rw [if_neg hr, if_neg hr, if_pos hr, commandsEffect_cons, commandsEffect_nil]
    exact commandEffect_tail_of_tailWord d hr he hp

theorem commandEffect_final (x : Word) (he : a.err = false) (hp : a.phase = .absorb ∨ a.phase = .tailed) :
    commandEffect (.final x) a = finalEffect a :=
  sequenced_of_allowed he ((inAbsorbOrTailed_iff _).2 hp)

/-- The commands of HASH leave the hash and no trace of the registers before them (41_commands.md R80). -/
theorem commandsEffect_asmHash (a : Arch) : commandsEffect (asmHash seed d) a =
    { h := murmur3 d seed, len := BitVec.ofNat 32 d.length, phase := .done, result := murmur3 d seed,
      err := false, ecode := 0 } := by
  have habsorb := commandsEffect_asmAbsorb (a := initEffect seed a) d rfl rfl
  have hphase : (commandsEffect (asmAbsorb d) (initEffect seed a)).phase = .absorb ∨
      (commandsEffect (asmAbsorb d) (initEffect seed a)).phase = .tailed := by
    rw [habsorb]
    exact ite_eq_or_eq ..
  rw [asmHash, commandsEffect_cons, commandsEffect_append, commandsEffect_cons, commandsEffect_nil, commandEffect,
    commandEffect_final 0 (by rw [habsorb]; rfl) hphase, habsorb, finalEffect, murmur3_eq]
  simp

end

/-- Settles O32: `commandsEffect_asmHash` for the registers at the end. An error raised on the way would still stand at the end,
since no command after the first is an INIT. -/
theorem hashCommandsComputeMurmur3 : Obligations.HashCommandsComputeMurmur3 := by
  intro d seed s
  have hend := retireAll_map_encode (s := s) fun i => wellFormed_of_mem_asmHash d seed
  rw [State.mapArch, commandsEffect_asmHash] at hend
  refine ⟨hend, fun n hn _ => Bool.eq_false_iff.2 fun herr => ?_⟩
  rw [← List.take_append_drop n ((asmHash seed d).map encode), retireAll_append,
    retireAll_of_err herr fun b hb => ctl_ne_init_of_mem_drop_asmHash d seed (List.drop_subset_drop_left _ hn hb)] at hend
  rw [hend] at herr
  cases herr

end Sys2Proof.Machine.CommandProofs
end

section
/-! Proofs of the family 60_exceptions.md: the decode check on the fields as numbers, the one error a beat can raise, how the error
state is entered and left, and the way back from a loss of power. -/

namespace Sys2Proof.Machine.ExceptionProofs

open Sys2Proof Sys2Proof.Machine

/-! ### The fields of the control byte as numbers -/

section

variable (ctl : Byte)

theorem toNat_ctlOp : (ctlOp ctl).toNat = ctl.toNat % 8 := by
  simp [ctlOp, BitVec.extractLsb'_toNat]

theorem toNat_ctlN : (ctlN ctl).toNat = ctl.toNat / 8 % 4 := by
  simp [ctlN, BitVec.extractLsb'_toNat, Nat.shiftRight_eq_div_pow]

theorem toNat_ctlRsv : (ctlRsv ctl).toNat = ctl.toNat / 32 := by
  have := ctl.isLt
  simp only [ctlRsv, BitVec.extractLsb'_toNat, Nat.shiftRight_eq_div_pow]
  omega

theorem ctlOp_eq_iff (op : BitVec 3) : ctlOp ctl = op ↔ ctl.toNat % 8 = op.toNat := by
  rw [← BitVec.toNat_inj, toNat_ctlOp]

theorem ctlN_eq_zero_iff : ctlN ctl = 0 ↔ ctl.toNat / 8 % 4 = 0 := by
  rw [← BitVec.toNat_inj, toNat_ctlN]
  rfl

theorem ctlRsv_eq_zero_iff : ctlRsv ctl = 0 ↔ ctl.toNat / 32 = 0 := by
  rw [← BitVec.toNat_inj, toNat_ctlRsv]
  rfl

/-- The decode check with its tests on numbers (60_exceptions.md R87). -/
theorem decodeCheck_eq_of_numbers :
    decodeCheck ctl =
      if ctl.toNat % 8 = 5 ∨ ctl.toNat % 8 = 6 ∨ ctl.toNat % 8 = 7 then some .illegalOp
      else if ctl.toNat / 32 ≠ 0 ∨ (ctl.toNat % 8 ≠ 3 ∧ ctl.toNat / 8 % 4 ≠ 0) then some .reservedField
      else if ctl.toNat % 8 = 3 ∧ ctl.toNat / 8 % 4 = 0 then some .tailZero
      else none := by
  simp only [decodeCheck, ne_eq, ctlOp_eq_iff, ctlN_eq_zero_iff, ctlRsv_eq_zero_iff]
  rfl

end

/-! ### The error a beat raises -/

/-- The error of a beat that raises one: what the decode check finds, else SEQUENCE (60_exceptions.md R89);
`beatEffect_of_sets_err` says that a beat raises no other. -/
def firstError (ctl : Byte) : CmdError := (decodeCheck ctl).getD .sequence

section

variable {f : Arch → Arch} {allowed : Phase → Bool} {a : Arch} {b : Beat} {i : Instr}

theorem errorCode_firstError (ctl : Byte) :
    errorCode (firstError ctl) =
      if ctl.toNat % 8 ≥ 5 then 1
      else if ctl.toNat / 32 ≠ 0 ∨ (ctl.toNat % 8 ≠ 3 ∧ ctl.toNat / 8 % 4 ≠ 0) then 2
      else if ctl.toNat % 8 = 3 ∧ ctl.toNat / 8 % 4 = 0 then 3
      else 4 := by
  have hop : (ctl.toNat % 8 = 5 ∨ ctl.toNat % 8 = 6 ∨ ctl.toNat % 8 = 7) ↔ ctl.toNat % 8 ≥ 5 := by omega
  rw [firstError, decodeCheck_eq_of_numbers]
  simp only [hop]
  split_ifs <;> rfl

theorem one_le_errorCode (e : CmdError) : 1 ≤ (errorCode e).toNat :=
  Nat.pos_of_ne_zero fun h => errorCode_ne_zero e (BitVec.eq_of_toNat_eq h)

/-- A command that needs a phase, and keeps ERR when it is performed, sets ERR by the error action SEQUENCE only. -/
theorem sequenced_of_sets_err (hf : (f a).err = a.err ∧ (f a).ecode = a.ecode) (he : a.err = false)
    (h : (sequenced allowed f a).err = true) : sequenced allowed f a = raiseCmdError .sequence a := by
  rcases StateProofs.sequenced_error_frame (allowed := allowed) hf with ⟨hkeep, -⟩ | ⟨-, hraise⟩
  · rw [hkeep, he] at h
    cases h
  · exact hraise

/-- A legal command raises no error but SEQUENCE (60_exceptions.md R88). -/
theorem commandEffect_of_sets_err (he : a.err = false) (h : (commandEffect i a).err = true) :
    commandEffect i a = raiseCmdError .sequence a := by
  cases i with
  | nop x => simp [commandEffect_nop, he] at h
  | init seed => cases h
  | block k => exact sequenced_of_sets_err ⟨rfl, rfl⟩ he h
  | tail n t => exact sequenced_of_sets_err ⟨rfl, rfl⟩ he h
  | final x => exact sequenced_of_sets_err ⟨rfl, rfl⟩ he h

/-- A beat that takes ERR from 0 to 1 is the error action with its first error, and nothing else (60_exceptions.md R84, R89). -/
theorem beatEffect_of_sets_err (he : a.err = false) (h : (beatEffect b a).err = true) :
    beatEffect b a = raiseCmdError (firstError b.ctl) a := by
  cases hc : decodeCheck b.ctl with
  | some e =>
    rw [beatEffect, (decode_error_iff b e).2 hc, firstError, hc]
    exact unlessErr_of_no_err he
  | none =>
    have hb : beatEffect b = commandEffect (selectInstr b) := by
      rw [beatEffect, (decode_ok_iff b _).2 ⟨hc, rfl⟩]
    rw [hb] at h ⊢
    rw [firstError, hc]
    exact commandEffect_of_sets_err he h

/-- A beat that leaves ERR = 1 standing is dropped (60_exceptions.md R85). -/
theorem beatEffect_of_keeps_err (he : a.err = true) (h : (beatEffect b a).err = true) : beatEffect b a = a := by
  rcases beatEffect_of_err (b := b) he with ⟨-, hinit⟩ | ⟨-, hkeep⟩
  · rw [hinit] at h
    cases h
  · exact hkeep

end

/-! ### The error state and the loss of power over a step -/

section

variable {s t : State} {es : List Event}

/-- A live step from ERR = 1 keeps the registers, or resets them, or retires an INIT (60_exceptions.md R91). -/
theorem step_from_err (hl : s.live = true) (he : s.arch.err = true) (h : step s = .next t) (ht : t.live = true) :
    t.arch = s.arch ∨
    (s.schedule.head? = some .assertReset ∧ t.arch = Arch.reset) ∨
    (∃ seed rest, s.pending = ⟨0x01, seed⟩ :: rest ∧ (s.schedule = [] ∨ s.schedule.head? = some .retire) ∧
      t.arch = initEffect seed s.arch) := by
  by_cases hne : t.arch = s.arch
  · exact .inl hne
  rcases StateProofs.reset_or_retire_of_arch_ne hl h ht hne with hreset | ⟨⟨ctl, seed⟩, rest, hp, hs, ha⟩
  · exact .inr (.inl hreset)
  · rcases beatEffect_of_err (b := ⟨ctl, seed⟩) he with ⟨rfl, hinit⟩ | ⟨-, hkeep⟩
    · exact .inr (.inr ⟨seed, rest, hp, hs, ha.trans hinit⟩)
    · exact absurd (ha.trans hkeep) hne

/-- A loss of power is a step from every state, live or not (log 11). -/
theorem step_of_powerLoss (hs : s.schedule = .powerLoss :: es) : step s = powerLossStep { s with schedule := es } := by
  cases hl : s.live <;> simp [step, hs, eventStep, hl, liveEvent, unresetEvent]

/-- A reset is a step from every state too (70_reset_and_hazards.md R98). -/
theorem step_of_assertReset (hs : s.schedule = .assertReset :: es) : step s = resetStep { s with schedule := es } := by
  cases hl : s.live <;> simp [step, hs, eventStep, hl, liveEvent, unresetEvent]

/-- `rst_n` returns to 1 (70_reset_and_hazards.md R99). -/
theorem step_of_releaseReset (hs : s.schedule = .releaseReset :: es) (hl : s.live = true) :
    step s = .next { s with rstN := true, schedule := es } :=
  step_of_schedule hs hl

/-- Before the first reset after power-up no other step has a meaning (93 U4). -/
theorem step_refused_of_not_live (hl : s.live = false) (hreset : s.schedule.head? ≠ some .assertReset)
    (hpower : s.schedule.head? ≠ some .powerLoss) : step s = .refused .noResetSincePowerUp := by
  cases hs : s.schedule with
  | nil => simp [step, hs, quietStep, hl]
  | cons e rest =>
    simp only [step, hs, eventStep, hl, Bool.false_eq_true, if_false]
    cases e with
    | assertReset => simp [hs] at hreset
    | powerLoss => simp [hs] at hpower
    | _ => rfl

/-- A reset and its release make the block ready from every state (60_exceptions.md R97, 70_reset_and_hazards.md R98, R99). -/
theorem runSteps_reset_release (hs : s.schedule = .assertReset :: .releaseReset :: es) :
    runSteps 2 s = .next { s with arch := Arch.reset, pending := [], rstN := true, live := true, schedule := es } := by
  rw [runSteps_succ_of_next (step_of_assertReset hs), runSteps_succ_of_next (step_of_releaseReset rfl rfl), runSteps_zero]

end

/-! ### The obligations -/

/-- Settles O35: a beat that sets ERR is the error action, and one that leaves ERR = 1 is dropped. -/
theorem errorActionChangesOnlyErrAndEcode : Obligations.ErrorActionChangesOnlyErrAndEcode := by
  refine ⟨fun e a => ⟨rfl, one_le_errorCode e, errorCode_le e⟩, fun b s t he h ht => ?_, fun b s t he h ht => ?_⟩
  all_goals
    rw [execBeat_eq] at h
    cases h
  · exact ⟨firstError b.ctl, congrArg (fun a => { s with arch := a }) (beatEffect_of_sets_err he ht)⟩
  · exact congrArg (fun a => { s with arch := a }) (beatEffect_of_keeps_err he ht)

/-- Settles O37: the code of the error a beat raises is `errorCode_firstError`; the examples fail the decode check. -/
theorem firstErrorInPriorityOrder : Obligations.FirstErrorInPriorityOrder := by
  refine ⟨fun b s t he h ht => ?_, fun b s t he h ht => ?_, fun x s he => ⟨?_, ?_, fun _ => ?_⟩⟩
  · rw [execBeat_eq] at h
    cases h
    rw [State.mapArch_arch, beatEffect_of_sets_err he ht, raiseCmdError_ecode, errorCode_firstError]
  · rw [execBeat_eq] at h
    cases h
    exact congrArg Arch.ecode (beatEffect_of_keeps_err he ht)
  · exact EncodingProofs.execBeat_of_decodeCheck (e := .illegalOp) (by decide) he x
  · exact EncodingProofs.execBeat_of_decodeCheck (e := .reservedField) (by decide) he x
  · exact EncodingProofs.execBeat_of_decodeCheck (e := .reservedField) (by decide) he x

/-- Settles O38: every beat answers a state (`execBeat_eq`), the port does not look at ERR, and after the error every beat is dropped
(`retireAll_of_err`). -/
theorem errorsArePrecise : Obligations.ErrorsArePrecise := by
  refine ⟨fun b s => ⟨_, execBeat_eq b s⟩, fun b s hr ho _ => by simp [acceptStep, hr, ho], ?_⟩
  rintro before rest b e s _ rfl - h hrest
  rw [CommandProofs.retireAll_append, retireAll, h]
  exact CommandProofs.retireAll_of_err (s := (retireAll before s).mapArch (raiseCmdError e)) rfl hrest

/-- Settles O39, by the three things a step from ERR = 1 can do (`step_from_err`). -/
theorem errorStateLeftOnlyByInitOrReset : Obligations.ErrorStateLeftOnlyByInitOrReset := by
  intro s t hl he h ht
  rcases step_from_err hl he h ht with ha | ⟨hs, ha⟩ | ⟨seed, rest, hp, hs, ha⟩ <;> rw [ha]
  · exact ⟨fun _ => rfl, fun he0 => by simp [he] at he0⟩
  · exact ⟨nofun, fun _ => .inl hs⟩
  · exact ⟨nofun, fun _ => .inr ⟨seed, rest, hp, hs, rfl, rfl, rfl⟩⟩

/-- Settles O18: the tests on the fields are tests on numbers, and the decode check reads the control byte alone. -/
theorem decodeCheckInItsOrder : Obligations.DecodeCheckInItsOrder :=
  ⟨decodeCheck_eq_of_numbers, fun _ _ _ _ => decode_error_congr⟩

/-- Settles O36: `beatEffect_of_err` while ERR = 1, and each command in its phases with ERR = 0. -/
theorem stickyErrorDropsAllButInit : Obligations.StickyErrorDropsAllButInit := by
  refine ⟨fun b s he => ?_, fun s he => ⟨fun x => CommandProofs.exec_nop x s, fun seed => CommandProofs.exec_init seed s,
    fun hp k => CommandProofs.exec_block_of_absorb k he hp, fun hp n t => CommandProofs.exec_tail_of_absorb n t he hp,
    fun hp x => CommandProofs.exec_final_of_absorb_or_tailed x he hp⟩⟩
  rw [execBeat_eq, State.mapArch]
  rcases beatEffect_of_err (b := b) he with ⟨hc, hinit⟩ | ⟨hc, hkeep⟩
  · rw [hinit]
    exact ⟨fun hne => absurd hc hne, fun _ => rfl⟩
  · rw [hkeep]
    exact ⟨fun _ => rfl, fun hc1 => absurd hc1 hc⟩

/-- Settles O60: a loss of power is a step from every state, and the reset after it sets every register. -/
theorem oneResetAfterPowerUp : Obligations.OneResetAfterPowerUp := by
  refine ⟨fun s => step_refused_of_not_live, fun s es hs => ?_, fun s es hs => ⟨_, step_of_powerLoss hs, rfl⟩⟩
  rw [runSteps_succ_of_next (step_of_powerLoss hs), runSteps_reset_release rfl]
  exact ⟨_, rfl, ⟨rfl, rfl, rfl⟩, rfl, rfl⟩

end Sys2Proof.Machine.ExceptionProofs
end

section
/-! Proofs of the family 70_reset_and_hazards.md: the steps of the ports, retirement, reset, settled and unsettled reads, and the
observation of a hash job. -/

namespace Sys2Proof.Machine.HazardProofs

open Sys2Proof Sys2Proof.Machine

/-! ### The commands of a job on the registers -/

/-- The registers after these beats have taken their effect one after the other; `retireAll_eq_mapArch` says that it is what retiring
them does. -/
def beatsEffect (bs : List Beat) (a : Arch) : Arch := bs.foldl (fun a b => beatEffect b a) a

/-- The registers with another RESULT: what two runs of a job's commands may differ in until its FINAL (41_commands.md R81). -/
def withResult (r : Word) (a : Arch) : Arch := { a with result := r }

section

variable {f : Arch → Arch} {allowed : Phase → Bool} {a a' : Arch} {b : Beat} {bs rest : List Beat} {s : State}

@[simp] theorem beatsEffect_nil (a : Arch) : beatsEffect [] a = a := rfl

@[simp] theorem beatsEffect_cons (b : Beat) (bs : List Beat) (a : Arch) :
    beatsEffect (b :: bs) a = beatsEffect bs (beatEffect b a) := rfl

theorem beatsEffect_concat (bs : List Beat) (b : Beat) (a : Arch) :
    beatsEffect (bs ++ [b]) a = beatEffect b (beatsEffect bs a) := List.foldl_concat ..

theorem retireAll_eq_mapArch (bs : List Beat) (s : State) : retireAll bs s = s.mapArch (beatsEffect bs) := retireAll_eq bs s

theorem beatEffect_of_initCtl (h : b.ctl = initCtl) (a : Arch) : beatEffect b a = initEffect b.data a := by
  obtain ⟨ctl, x⟩ := b
  obtain rfl : ctl = 0x01 := h
  rw [beatEffect, (decode_legal x).2.1]
  rfl

theorem beatEffect_of_finalCtl (h : b.ctl = finalCtl) (a : Arch) :
    beatEffect b a = sequenced inAbsorbOrTailed finalEffect a := by
  obtain ⟨ctl, x⟩ := b
  obtain rfl : ctl = 0x04 := h
  rw [beatEffect, (decode_legal x).2.2.2.2.2.2]
  rfl

theorem unlessErr_withResult (hf : ∀ r a, f (withResult r a) = withResult r (f a)) (r : Word) (a : Arch) :
    unlessErr f (withResult r a) = withResult r (unlessErr f a) := by
  cases h : a.err with
  | true => rw [unlessErr_of_err h, unlessErr_of_err (a := withResult r a) h]
  | false => rw [unlessErr_of_no_err h, unlessErr_of_no_err (a := withResult r a) h, hf]

theorem sequenced_withResult (hf : ∀ r a, f (withResult r a) = withResult r (f a)) (r : Word) (a : Arch) :
    sequenced allowed f (withResult r a) = withResult r (sequenced allowed f a) := by
  refine unlessErr_withResult (fun r a => ?_) r a
  have hp : (withResult r a).phase = a.phase := rfl
  rw [inSequence, inSequence, hp]
  split
  · exact hf r a
  · rfl

/-- Every beat but FINAL neither reads RESULT nor writes it (10_state.md R15). -/
theorem beatEffect_withResult (hb : b.ctl ≠ finalCtl) (r : Word) (a : Arch) :
    beatEffect b (withResult r a) = withResult r (beatEffect b a) := by
  unfold beatEffect
  cases hd : decode b with
  | error e => exact unlessErr_withResult (fun _ _ => rfl) r a
  | ok i =>
    cases i with
    | nop x => exact unlessErr_withResult (fun _ _ => rfl) r a
    | init seed => rfl
    | block k => exact sequenced_withResult (fun _ _ => rfl) r a
    | tail n t => exact sequenced_withResult (fun _ _ => rfl) r a
    | final x =>
      obtain ⟨he, -⟩ := EncodingProofs.encode_of_decode hd
      exact absurd (by rw [← he]; rfl) hb

/-- A FINAL that ends without an error was performed: it writes RESULT and does not read it (41_commands.md R72). -/
theorem beatEffect_final_withResult (hb : b.ctl = finalCtl) (r : Word) (he : (beatEffect b a).err = false) :
    beatEffect b (withResult r a) = beatEffect b a := by
  rw [beatEffect_of_finalCtl hb] at he
  rw [beatEffect_of_finalCtl hb, beatEffect_of_finalCtl hb]
  rcases sequenced_cases inAbsorbOrTailed finalEffect a with ⟨herr, h⟩ | ⟨herr, hp, h⟩ | ⟨-, -, h⟩
  · simp [h, herr] at he
  · rw [h, sequenced_of_allowed (a := withResult r a) herr hp]
    rfl
  · simp [h] at he

/-- What a job's commands after its INIT leave without an error does not depend on RESULT before them. -/
theorem beatsEffect_withResult (hj : endsJob bs = true) (r : Word) (he : (beatsEffect bs a).err = false) :
    beatsEffect bs (withResult r a) = beatsEffect bs a := by
  induction bs using endsJob.induct generalizing a with
  | case1 => cases hj
  | case2 b => exact beatEffect_final_withResult (by simpa [endsJob] using hj) r he
  | case3 b bs hne ih =>
    simp only [endsJob, Bool.and_eq_true, bne_iff_ne] at hj
    obtain ⟨⟨-, hb⟩, hj⟩ := hj
    rw [beatsEffect_cons, beatEffect_withResult hb]
    exact ih hj he

/-- A job that ends without an error leaves the same registers from every state: its INIT sets all of them but RESULT
(41_commands.md R81). -/
theorem beatsEffect_of_isHashJob (hj : isHashJob bs = true) (he : (beatsEffect bs a).err = false) (a' : Arch) :
    beatsEffect bs a' = beatsEffect bs a := by
  cases bs with
  | nil => cases hj
  | cons b rest =>
    simp only [isHashJob, Bool.and_eq_true, beq_iff_eq] at hj
    obtain ⟨hb, hj⟩ := hj
    rw [beatsEffect_cons, beatEffect_of_initCtl hb] at he ⊢
    rw [beatsEffect_cons, beatEffect_of_initCtl hb]
    exact beatsEffect_withResult hj a'.result he

end

/-! ### What the watch of a job knows -/

/-- The commands of a job that has not ended: an INIT, and since then neither an INIT nor a FINAL. -/
def isJobBegun (cmds : List Beat) : Prop :=
  ∃ b mid, cmds = b :: mid ∧ b.ctl = initCtl ∧ ∀ c ∈ mid, c.ctl ≠ initCtl ∧ c.ctl ≠ finalCtl

/-- What the watch says of the registers `a` as they will be once the pending commands have retired; `watchAgrees_of_run` says that
this holds over every run. -/
def watchAgrees (a : Arch) : JobWatch → Prop
  | .outside => True
  | .running cmds => isJobBegun cmds ∧ ∃ a₀, a = beatsEffect cmds a₀
  | .ended cmds => isHashJob cmds = true ∧ ∃ a₀, a = beatsEffect cmds a₀
  | .confirmed cmds => isHashJob cmds = true ∧ ∀ a₀, beatsEffect cmds a₀ = a
  | .observed cmds v => isHashJob cmds = true ∧ ∀ a₀, (beatsEffect cmds a₀).result = v

section

variable {a : Arch} {b : Beat} {cmds : List Beat} {s t : State} {w w' : JobWatch} {sel : BitVec 2} {n : Nat}

theorem isJobBegun_singleton (hb : b.ctl = initCtl) : isJobBegun [b] := ⟨b, [], rfl, hb, nofun⟩

theorem isJobBegun_concat (h : isJobBegun cmds) (hi : b.ctl ≠ initCtl) (hf : b.ctl ≠ finalCtl) : isJobBegun (cmds ++ [b]) := by
  obtain ⟨c, mid, rfl, hc, hmid⟩ := h
  refine ⟨c, mid ++ [b], rfl, hc, fun d hd => ?_⟩
  rcases List.mem_append.1 hd with hd | hd
  · exact hmid d hd
  · cases List.mem_singleton.1 hd
    exact ⟨hi, hf⟩

theorem isHashJob_concat (h : isJobBegun cmds) (hf : b.ctl = finalCtl) : isHashJob (cmds ++ [b]) = true := by
  obtain ⟨c, mid, rfl, hc, hmid⟩ := h
  simp [isHashJob, hc, endsJob_append hmid hf]

/-- The watch takes in an accepted command as the registers will (20_memory.md R35). -/
theorem watchAgrees_accept (b : Beat) (h : watchAgrees a w) : watchAgrees (beatEffect b a) (w.accept b) := by
  by_cases hi : b.ctl = initCtl
  · rw [accept_of_init w hi]
    exact ⟨isJobBegun_singleton hi, a, rfl⟩
  · cases w with
    | running cmds =>
      obtain ⟨hbegun, a₀, rfl⟩ := h
      by_cases hf : b.ctl = finalCtl
      · rw [accept_running_of_final cmds hf]
        exact ⟨isHashJob_concat hbegun hf, a₀, (beatsEffect_concat ..).symm⟩
      · rw [accept_running_of_other cmds hi hf]
        exact ⟨isJobBegun_concat hbegun hi hf, a₀, (beatsEffect_concat ..).symm⟩
    | _ => simp [JobWatch.accept, hi, watchAgrees]

/-- A settled STATUS that shows DONE without error shows ERR = 0 (10_state.md R16). -/
theorem err_of_statusShowsDone (h : statusShowsDone (statusWord false a) = true) : a.err = false := by
  obtain ⟨herr, -⟩ := CommandProofs.statusWord_fields false a
  simp only [statusShowsDone, herr, Bool.and_eq_true, Bool.not_eq_true'] at h
  obtain ⟨-, h0⟩ := h
  exact h0

/-- A settled read keeps what the watch says true: STATUS confirms a job that ended without an error, RESULT then observes it. -/
theorem watchAgrees_read (sel : BitVec 2) (h : watchAgrees a w) : watchAgrees a (w.read sel (settledValue a sel)) := by
  cases w with
  | outside => trivial
  | running cmds => exact h
  | ended cmds =>
    rw [JobWatch.read]
    split
    · next hdone =>
      obtain ⟨rfl, hdone⟩ := hdone
      obtain ⟨hjob, a₀, rfl⟩ := h
      exact ⟨hjob, beatsEffect_of_isHashJob hjob (err_of_statusShowsDone hdone)⟩
    · exact h
  | confirmed cmds =>
    rw [JobWatch.read]
    split
    · next hsel =>
      obtain ⟨hjob, ha⟩ := h
      exact ⟨hjob, fun a₀ => by rw [ha, hsel]; rfl⟩
    · exact h
  | observed cmds v => exact h

/-- A block that takes an uninterrupted step has had a reset since power-up (93 U4). -/
theorem live_of_not_interrupted (h : step s = .next t) (hi : interruptedBy s = false) : s.live = true := by
  simp only [interruptedBy, Bool.or_eq_false_iff, beq_eq_false_iff_ne] at hi
  obtain ⟨hreset, hpower⟩ := hi
  by_contra hl
  rw [Bool.not_eq_true] at hl
  rw [ExceptionProofs.step_refused_of_not_live hl hreset hpower] at h
  cases h

/-- What the watch says stays true over a step. -/
theorem watchAgrees_step (hw : watchAgrees (settledArch s) w) (h : step s = .next t) :
    watchAgrees (settledArch t) (watchStep w s t) := by
  cases hi : interruptedBy s with
  | true =>
    rw [watchStep_of_interrupted hi]
    trivial
  | false =>
    cases ha : acceptedBy s with
    | some b =>
      rw [watchStep_of_accepted hi ha, settledArch_of_accepted h ha]
      exact watchAgrees_accept b hw
    | none =>
      rw [settledArch_of_not_accepted (live_of_not_interrupted h hi) h hi ha]
      cases hr : settledReadBy s with
      | none =>
        rw [watchStep_of_none hi ha hr]
        exact hw
      | some sel =>
        obtain ⟨-, -, hp, hstep⟩ := step_of_settledReadBy hr
        have hv : t.rdData = settledValue (settledArch s) sel := by
          cases hstep.symm.trans h
          rw [MemoryProofs.settledArch_of_none_pending hp]
        rw [watchStep_of_read hi ha hr, hv]
        exact watchAgrees_read sel hw

/-- What the watch says holds over every run, so every observation is of a job and of what its commands leave in RESULT. -/
theorem watchAgrees_of_run (hw : watchAgrees (settledArch s) w) (h : watchRun n w s = some w') : ∃ a, watchAgrees a w' := by
  induction n generalizing w s with
  | zero =>
    cases h
    exact ⟨_, hw⟩
  | succ n ih =>
    obtain ⟨t, hstep, h⟩ := step_next_of_watchRun h
    exact ih (watchAgrees_step hw hstep) h

/-- A step that accepts a command, resets or loses power is always taken. -/
theorem exists_step_of_accepted_or_interrupted
    (h : (∃ b, acceptedBy s = some b) ∨ s.schedule.head? = some .assertReset ∨ s.schedule.head? = some .powerLoss) :
    ∃ t, step s = .next t := by
  rcases h with ⟨b, hb⟩ | h | h
  · exact ⟨_, step_of_acceptedBy hb⟩
  · obtain ⟨es, he⟩ := List.head?_eq_some_iff.1 h
    exact ⟨_, ExceptionProofs.step_of_assertReset he⟩
  · obtain ⟨es, he⟩ := List.head?_eq_some_iff.1 h
    exact ⟨_, ExceptionProofs.step_of_powerLoss he⟩

/-- Over a step that accepts a command, resets or loses power the watch loses its observation (log 22). -/
theorem watchStep_ne_observed
    (h : (∃ b, acceptedBy s = some b) ∨ s.schedule.head? = some .assertReset ∨ s.schedule.head? = some .powerLoss)
    (w : JobWatch) (t : State) (cmds : List Beat) (v : Word) : watchStep w s t ≠ .observed cmds v := by
  cases hi : interruptedBy s with
  | true =>
    rw [watchStep_of_interrupted hi]
    nofun
  | false =>
    simp only [interruptedBy, Bool.or_eq_false_iff, beq_eq_false_iff_ne] at hi
    obtain ⟨b, hb⟩ := h.resolve_right (not_or.2 hi)
    rw [watchStep_of_accepted (by simpa [interruptedBy] using hi) hb]
    exact accept_ne_observed w b cmds v

end

/-! ### The steps that deliver a command -/

/-- The watch after these commands have been accepted, and nothing else has been seen. -/
def acceptAll (bs : List Beat) (w : JobWatch) : JobWatch := bs.foldl (fun w b => w.accept b) w

/-- The steps by which the host offers a command and the block accepts and retires it. -/
def deliveryEvents (b : Beat) : List Event := [.offer b, .edge, .retire]

section

variable {b : Beat} {bs rest : List Beat} {es : List Event} {s t : State} {w : JobWatch}

theorem watchRun_succ {n : Nat} {w' : JobWatch} (h : step s = .next t) (hw : watchStep w s t = w') :
    watchRun (n + 1) w s = watchRun n w' t := hw ▸ watchRun_succ_of_next h

/-- The watch looks at no offer and at no retirement. -/
theorem watchStep_of_offer_or_retire {e : Event} (he : e = .offer b ∨ e = .retire) (hs : s.schedule = e :: es) :
    watchStep w s t = w := by
  have hi : interruptedBy s = false := by rcases he with rfl | rfl <;> simp [interruptedBy, hs]
  have ha : acceptedBy s = none := by rcases he with rfl | rfl <;> simp [acceptedBy, hs]
  have hr : settledReadBy s = none := by rcases he with rfl | rfl <;> simp [settledReadBy, hs]
  exact watchStep_of_none hi ha hr

theorem step_of_offer (hl : s.live = true) (ho : s.offered = none) (he : s.schedule = .offer b :: es) :
    step s = .next { s with offered := some b, schedule := es } := by
  rw [step_of_schedule he hl, liveEvent, offerStep, ho]

theorem retireStep_of_pending (hp : s.pending = b :: rest) : retireStep s = execBeat b { s with pending := rest } := by
  rw [retireStep, hp]

theorem step_of_retire (hl : s.live = true) (hp : s.pending = b :: rest) (he : s.schedule = .retire :: es) :
    step s = execBeat b { s with pending := rest, schedule := es } := by
  rw [step_of_schedule he hl]
  exact retireStep_of_pending (s := { s with schedule := es }) hp

/-- The delivery of one command to a settled block, and what the watch sees of it. -/
theorem run_delivery (hs : s.Settled) (ho : s.offered = none) (he : s.schedule = deliveryEvents b ++ es) :
    ∃ t : State, t.Settled ∧ t.offered = none ∧ t.schedule = es ∧ t.arch = beatEffect b s.arch ∧
      ∀ n w, runSteps (n + 3) s = runSteps n t ∧ watchRun (n + 3) w s = watchRun n (w.accept b) t := by
  obtain ⟨hl, hr, hp⟩ := hs
  have hoffer := step_of_offer hl ho he
  have hb : acceptedBy { s with offered := some b, schedule := .edge :: .retire :: es } = some b := by
    simp [acceptedBy, hl, hr]
  have haccept := step_of_acceptedBy hb
  have hretire := (step_of_retire (s := { s with pending := s.pending ++ [b], offered := none, schedule := .retire :: es })
    (rest := []) hl (by simp [hp]) rfl).trans (execBeat_eq b _)
  refine ⟨{ s with arch := beatEffect b s.arch, pending := [], offered := none, schedule := es }, ⟨hl, hr, rfl⟩, rfl, rfl, rfl,
    fun n w => ⟨?_, ?_⟩⟩
  · exact (runSteps_succ_of_next hoffer).trans ((runSteps_succ_of_next haccept).trans (runSteps_succ_of_next hretire))
  · exact (watchRun_succ hoffer (watchStep_of_offer_or_retire (.inl rfl) he)).trans
      ((watchRun_succ haccept (watchStep_of_accepted rfl hb)).trans
        (watchRun_succ hretire (watchStep_of_offer_or_retire (b := b) (.inr rfl) rfl)))

/-- The delivery of commands one after the other. -/
theorem run_deliveries (hs : s.Settled) (ho : s.offered = none) (he : s.schedule = bs.flatMap deliveryEvents ++ es) :
    ∃ t : State, t.Settled ∧ t.schedule = es ∧ t.arch = beatsEffect bs s.arch ∧
      ∀ n w, runSteps (n + 3 * bs.length) s = runSteps n t ∧ watchRun (n + 3 * bs.length) w s = watchRun n (acceptAll bs w) t := by
  induction bs generalizing s with
  | nil => exact ⟨s, hs, he, rfl, fun n w => ⟨rfl, rfl⟩⟩
  | cons b bs ih =>
    rw [List.flatMap_cons, List.append_assoc] at he
    obtain ⟨u, hu, huo, hue, hua, hurun⟩ := run_delivery hs ho he
    obtain ⟨t, ht, hte, hta, htrun⟩ := ih hu huo hue
    refine ⟨t, ht, hte, by rw [hta, hua]; rfl, fun n w => ?_⟩
    obtain ⟨hrun, hwatch⟩ := hurun (n + 3 * bs.length) w
    obtain ⟨hrun', hwatch'⟩ := htrun n (w.accept b)
    rw [List.length_cons, Nat.mul_succ, ← Nat.add_assoc, hrun, hwatch, hrun', hwatch']
    exact ⟨rfl, rfl⟩

theorem acceptAll_append (bs cs : List Beat) (w : JobWatch) : acceptAll (bs ++ cs) w = acceptAll cs (acceptAll bs w) :=
  List.foldl_append

/-- Commands that are neither INIT nor FINAL join a job that runs. -/
theorem acceptAll_running (h : ∀ c ∈ bs, c.ctl ≠ initCtl ∧ c.ctl ≠ finalCtl) (cmds : List Beat) :
    acceptAll bs (.running cmds) = .running (cmds ++ bs) := by
  induction bs generalizing cmds with
  | nil => rw [List.append_nil]; rfl
  | cons c bs ih =>
    obtain ⟨⟨hi, hf⟩, hbs⟩ := List.forall_mem_cons.1 h
    rw [acceptAll, List.foldl_cons, accept_running_of_other cmds hi hf]
    exact (ih hbs _).trans (by rw [List.append_assoc]; rfl)

end

section

variable (d : List Byte) (seed : Word)

/-- The commands of ABSORB neither begin nor end a job. -/
theorem ctl_of_mem_asmAbsorb {b : Beat} (h : b ∈ (asmAbsorb d).map encode) : b.ctl ≠ initCtl ∧ b.ctl ≠ finalCtl := by
  obtain ⟨i, hi, rfl⟩ := List.mem_map.1 h
  have hop : ctlOp (encode i).ctl = 2#3 ∨ ctlOp (encode i).ctl = 3#3 := by
    rcases CommandProofs.block_or_tail_of_mem_asmAbsorb d hi with ⟨k, rfl⟩ | ⟨m, t, -, rfl⟩
    · exact .inl (ctlOp_mkCtl ..)
    · exact .inr (ctlOp_mkCtl ..)
  constructor
  all_goals
    intro hc
    rw [hc] at hop
    revert hop
    decide

/-- The commands of HASH begin a job and end it. -/
theorem acceptAll_asmHash (w : JobWatch) : acceptAll ((asmHash seed d).map encode) w = .ended ((asmHash seed d).map encode) := by
  have hbegun : acceptAll [encode (.init seed)] w = .running [encode (.init seed)] := accept_of_init w rfl
  rw [asmHash, List.map_cons, List.map_append, ← List.singleton_append, acceptAll_append, hbegun, acceptAll_append,
    acceptAll_running fun _ => ctl_of_mem_asmAbsorb d, ← List.append_assoc]
  exact accept_running_of_final (b := encode (.final 0)) _ rfl

theorem beatsEffect_asmHash (a : Arch) : beatsEffect ((asmHash seed d).map encode) a =
    { h := murmur3 d seed, len := BitVec.ofNat 32 d.length, phase := .done, result := murmur3 d seed,
      err := false, ecode := 0 } := by
  obtain ⟨h, -⟩ := CommandProofs.hashCommandsComputeMurmur3 d seed { State.reset with arch := a }
  rw [retireAll_eq_mapArch] at h
  exact congrArg State.arch h

end

/-! ### Reads -/

section

variable {b : Beat} {bs rest : List Beat} {es : List Event} {s t : State} {e : Event} {sel : BitVec 2} {i : Instr}

/-- A read during reset: the next free value, whole (70_reset_and_hazards.md R99, log 5). -/
theorem readStep_in_reset (hr : s.rstN = false) : readStep sel s = .next ((s.showRead sel (freeWord s)).drawn 1) := by
  simp [readStep, hr]

/-- A step whose event is a settled read. -/
theorem step_of_settled_read (hs : s.Settled) (he : s.schedule = .read sel :: es) :
    step s = .next { s with rdSel := sel, rdData := settledValue s.arch sel, schedule := es } := by
  obtain ⟨hl, hr, hp⟩ := hs
  rw [step_of_schedule he hl]
  exact readStep_settled (s := { s with schedule := es }) hr hp

/-- STATUS after a hash: DONE, without an error (10_state.md R16). -/
theorem statusWord_of_done {a : Arch} (hp : a.phase = .done) (herr : a.err = false) (hcode : a.ecode = 0) :
    statusWord false a = 0x00000003 := by
  rw [statusWord, hp, herr, hcode]
  decide

/-- The two reads that observe a job which has ended. -/
theorem watchRun_status_result {n : Nat} {cmds : List Beat} (hs : s.Settled) (he : s.schedule = .read 1 :: .read 0 :: es)
    (hdone : statusShowsDone (statusWord false s.arch) = true) :
    ∃ t, watchRun (n + 2) (.ended cmds) s = watchRun n (.observed cmds s.arch.result) t := by
  have hstatus : JobWatch.read 1 (settledValue s.arch 1) (.ended cmds) = .confirmed cmds := if_pos ⟨rfl, hdone⟩
  rw [watchRun_settled_read hs he, hstatus]
  exact ⟨_, watchRun_settled_read
    (s := { s with rdSel := 1, rdData := settledValue s.arch 1, schedule := .read 0 :: es }) hs rfl⟩

/-- A read that shows BUSY = 0 is settled (70_reset_and_hazards.md R105). -/
theorem pending_of_not_busy_read (hr : s.rstN = true) (h : readStep 1 s = .next t) (hb : t.rdData.getLsbD 6 = false) :
    s.pending = [] := by
  by_contra hp
  rw [CommandProofs.readStep_unsettled hr hp] at h
  cases h
  exact Bool.false_ne_true (hb.symm.trans (CommandProofs.unsettledValue_busy_bit _))

/-- A quiet event leaves a settled block settled and its registers as they are (70_reset_and_hazards.md R105). -/
theorem settled_of_quiet_step (hs : s.Settled) (he : s.schedule = e :: es) (hq : e.isQuiet = true) (h : step s = .next t) :
    t.Settled ∧ t.arch = s.arch ∧ t.schedule = es := by
  obtain ⟨hl, hr, hp⟩ := hs
  rw [step_of_schedule he hl] at h
  rcases liveEvent_next h with
    ⟨ha, hp', hl', hes, hr'⟩ | ⟨_, rfl, -⟩ | ⟨b, rest, -, hp', -⟩ | ⟨rfl, -⟩ | ⟨rfl, -⟩
  · exact ⟨⟨hl'.trans hl, hr'.elim (·.trans hr) (·.2), hp'.trans hp⟩, ha, hes⟩
  · cases hq
  · cases hp.symm.trans hp'
  · cases hq
  · cases hq

theorem settled_of_quiet_run {qs : List Event} (hs : s.Settled) (he : s.schedule = qs ++ es) (hq : ∀ e ∈ qs, e.isQuiet = true)
    (h : runSteps qs.length s = .next t) : t.Settled ∧ t.arch = s.arch ∧ t.schedule = es := by
  induction qs generalizing s with
  | nil =>
    cases h
    exact ⟨hs, rfl, he⟩
  | cons e qs ih =>
    obtain ⟨hqe, hqs⟩ := List.forall_mem_cons.1 hq
    obtain ⟨u, hu, h⟩ := step_next_of_runSteps h
    obtain ⟨hsu, hau, heu⟩ := settled_of_quiet_step hs he hqe hu
    obtain ⟨hst, hat, het⟩ := ih hsu heu hqs h
    exact ⟨hst, hat.trans hau, het⟩

/-- Reads of a settled block complete. -/
theorem exists_run_of_reads {qs : List Event} (hs : s.Settled) (he : s.schedule = qs ++ es) (hq : ∀ e ∈ qs, e.isRead = true) :
    ∃ t, runSteps qs.length s = .next t := by
  induction qs generalizing s with
  | nil => exact ⟨s, rfl⟩
  | cons e qs ih =>
    obtain ⟨hqe, hqs⟩ := List.forall_mem_cons.1 hq
    cases e with
    | read sel =>
      rw [List.length_cons, runSteps_succ_of_next (step_of_settled_read hs he)]
      exact ih hs rfl hqs
    | _ => cases hqe

/-! ### Acceptance and retirement -/

theorem acceptStep_of_enabled (hr : s.rstN = true) (ho : s.offered = some b) :
    acceptStep s = .next { s with pending := s.pending ++ [b], offered := none } := by
  simp [acceptStep, hr, ho]

theorem execBeat_of_decode (hd : decode b = .ok i) (s : State) : execBeat b s = exec i s := by
  simp [execBeat, hd]

theorem decode_of_decodeTableWord {nbits word : Nat} (h : decodeTableWord nbits word = some i) :
    decode (beatOfTableWord nbits word) = .ok i := by
  unfold decodeTableWord at h
  split at h
  · cases hd : decode (beatOfTableWord nbits word) with
    | ok j => simpa [hd] using h
    | error e => simp [hd] at h
  · cases h

/-- With nothing scheduled the pending commands retire, one a step (70_reset_and_hazards.md R108, log 2). -/
theorem runSteps_quiet (hl : s.live = true) (he : s.schedule = []) (hp : s.pending = bs) :
    runSteps bs.length s = .next { s with arch := beatsEffect bs s.arch, pending := [] } := by
  induction bs generalizing s with
  | nil => exact congrArg (fun p => Host.Outcome.next { s with pending := p }) hp
  | cons b bs ih =>
    rw [List.length_cons, runSteps_succ_of_next (step_quiet_pending he hl hp)]
    exact ih (s := { s with arch := beatEffect b s.arch, pending := bs }) hl he rfl

end

/-! ### The obligations -/

/-- Settles O33: the first clause by `run_deliveries` and two settled reads, the second by what the watch says over every run
(`watchAgrees_of_run`), the third by what it loses at the last step. -/
theorem hashJobThroughThePorts : Obligations.HashJobThroughThePorts := by
  refine ⟨fun d seed s es hs ho he => ?_, fun n s cmds v h => ?_, fun n s t h hlast => ?_⟩
  · obtain ⟨t, ht, hte, hta, hrun⟩ := run_deliveries (bs := (asmHash seed d).map encode) (es := .read 1 :: .read 0 :: es) hs ho
      (by rw [he, List.flatMap_map]; rfl)
    rw [beatsEffect_asmHash] at hta
    obtain ⟨hjob, -⟩ := hrun 0 .outside
    obtain ⟨-, hwatch⟩ := hrun 2 .outside
    rw [List.length_map] at hjob hwatch
    have hstatus : statusWord false t.arch = 0x00000003 := by
      rw [hta]
      exact statusWord_of_done rfl rfl rfl
    have hresult : t.arch.result = murmur3 d seed := by rw [hta]
    obtain ⟨v, hobs⟩ := watchRun_status_result (n := 0) (cmds := (asmHash seed d).map encode) ht hte (by rw [hstatus]; decide)
    refine ⟨t, _, _, by rw [← Nat.zero_add (3 * _), hjob, runSteps_zero], step_of_settled_read ht hte, hstatus,
      step_of_settled_read ht rfl, hresult, rfl, ?_⟩
    rw [hashJobObservation_eq_some_iff, Nat.add_comm, hwatch, acceptAll_asmHash, hobs, hresult]
    rfl
  · obtain ⟨_, hjob, hresult⟩ := watchAgrees_of_run (w := .outside) trivial (hashJobObservation_eq_some_iff.1 h)
    refine ⟨hjob, fun s' => by rw [retireAll_eq_mapArch]; exact hresult s'.arch, fun d seed hcmds => ?_⟩
    rw [← hresult Arch.reset, hcmds, beatsEffect_asmHash]
  · refine Option.eq_none_iff_forall_ne_some.2 fun ⟨cmds, v⟩ hobs => ?_
    obtain ⟨w, hw⟩ := watchRun_of_runSteps (w := .outside) h
    obtain ⟨u, hu⟩ := exists_step_of_accepted_or_interrupted hlast
    exact watchStep_ne_observed hlast w u cmds v
      (Option.some.inj ((watchRun_last h hw hu).symm.trans (hashJobObservation_eq_some_iff.1 hobs)))

/-- Settles O49: a read that shows BUSY = 0 is not an unsettled one, and quiet events keep a block settled
(`settled_of_quiet_run`). -/
theorem settledReadsAreStable : Obligations.SettledReadsAreStable := by
  refine ⟨fun s t => pending_of_not_busy_read, fun es rest s t hs he hq h => ?_, fun es rest s => exists_run_of_reads⟩
  obtain ⟨⟨hl, hr, hp⟩, ha, hrest⟩ := settled_of_quiet_run hs he hq h
  exact ⟨⟨hl, hr, hp⟩, ha, hrest, fun sel => ha ▸ readStep_settled hr hp⟩

/-- Settles O54: the Retire step by its definition, and the ways of a live step (`step_next`). -/
theorem retireIsOneAtATimeInOrder : Obligations.RetireIsOneAtATimeInOrder := by
  refine ⟨fun b rest s hp => ?_, fun s t hl h ht => ?_⟩
  · have hretire := retireStep_of_pending hp
    exact ⟨hretire, beatEffect b s.arch, hretire.trans (execBeat_eq b _)⟩
  · rcases step_next hl h with
      ⟨ha, hp, -⟩ | ⟨b, -, -, -, rfl⟩ | ⟨b, rest, hp, -, rfl⟩ | ⟨hs, rfl⟩ | ⟨-, hdead⟩
    · exact .inl ⟨hp, ha⟩
    · exact .inr (.inl ⟨b, rfl, rfl⟩)
    · exact .inr (.inr (.inl ⟨b, hp, execBeat_eq b s⟩))
    · exact .inr (.inr (.inr ⟨hs, rfl, rfl⟩))
    · simp [hdead] at ht

/-- Settles O59, by induction on the pending commands (`runSteps_quiet`). -/
theorem everyPendingCommandRetires : Obligations.EveryPendingCommandRetires := by
  intro s hl he
  rw [settledArch_eq]
  exact runSteps_quiet hl he rfl

/-- Settles O47: a settled read by `readStep_settled`, an unsettled one with the next free word. -/
theorem unsettledReadAnswersAnyWord : Obligations.UnsettledReadAnswersAnyWord := fun _ s hr =>
  ⟨readStep_settled hr, fun hp => ⟨freeWord s, s.draws + 1, CommandProofs.readStep_unsettled hr hp⟩⟩

/-- Settles O50: a reset is a step from every state, live or not, and during it no offer is taken. -/
theorem resetStepSetsEveryElement : Obligations.ResetStepSetsEveryElement :=
  ⟨fun _ _ he => ⟨_, ExceptionProofs.step_of_assertReset he, rfl, rfl, rfl, rfl, rfl⟩,
    fun _ hr => EncodingProofs.acceptStep_of_not_enabled (.inl hr)⟩

/-- Settles O51: a read during reset by `readStep_in_reset`; the first one after it is settled, and every register reads 0. -/
theorem readsDuringAndAfterReset : Obligations.ReadsDuringAndAfterReset := by
  refine ⟨fun sel s hr => ⟨freeWord s, s.draws + 1, readStep_in_reset hr⟩, fun sel s es he => ?_⟩
  have hzero : ∀ sel, settledValue Arch.reset sel = 0x00000000 := by decide
  rw [runSteps_succ_of_next (ExceptionProofs.step_of_assertReset he),
    runSteps_succ_of_next (ExceptionProofs.step_of_releaseReset rfl rfl),
    runSteps_succ_of_next (step_of_settled_read ⟨rfl, rfl, rfl⟩ rfl)]
  exact ⟨_, rfl, ⟨rfl, rfl, rfl⟩, rfl, hzero sel, rfl, rfl⟩

/-- Settles O52: the Accept step by its definition, and the edge as the step that takes it. -/
theorem acceptAppendsTheOffer : Obligations.AcceptAppendsTheOffer := by
  refine ⟨fun b s => acceptStep_of_enabled, fun b es s hl hr ho he => ?_⟩
  rw [step_of_schedule he hl]
  exact acceptStep_of_enabled (s := { s with schedule := es }) hr ho

/-- Settles O55: the three steps are retirements of a beat that decodes. -/
theorem stepRunsTheDecodedCommand : Obligations.StepRunsTheDecodedCommand := by
  refine ⟨fun b i rest es s hl hp hd he => ?_, fun b i rest s hl hp hd he => ?_, fun nbits w i s h => ?_⟩
  · rw [step_of_retire hl hp he, execBeat_of_decode hd]
  · rw [step_quiet_pending he hl hp, ← execBeat_of_decode hd, execBeat_eq]
    rfl
  · rw [State.withFetchWord, step_of_retire (s := s.withNextCommand _) rfl rfl rfl,
      execBeat_of_decode (decode_of_decodeTableWord h)]
    rfl

/-- Settles O56: BUSY is defined by the pending commands, and a read of STATUS out of reset shows it (O46). -/
theorem busyIsExact : Obligations.BusyIsExact := by
  intro s
  have hbusy : busy s = true ↔ s.pending ≠ [] := by simp [busy]
  refine ⟨hbusy, fun hr => ?_⟩
  obtain ⟨hread, -⟩ := CommandProofs.statusReadIsTheFields
  obtain ⟨t, h, -, -, hbit, -⟩ := hread s hr
  exact ⟨t, h, hbit ▸ hbusy⟩

/-- Settles O57: during reset the draw is answered whole, and out of it with bit 6 set for STATUS. -/
theorem unsettledReadsUseFreshFreeValues : Obligations.UnsettledReadsUseFreshFreeValues := by
  intro sel s h
  cases hr : s.rstN with
  | false => exact ⟨_, readStep_in_reset hr, rfl, fun _ => rfl, nofun, nofun⟩
  | true =>
    have hp : s.pending ≠ [] := h.resolve_left (by simp [hr])
    exact ⟨_, CommandProofs.readStep_unsettled hr hp, rfl, nofun, fun _ hsel => if_neg hsel, fun _ hsel => if_pos hsel⟩

end Sys2Proof.Machine.HazardProofs
end
